-- ==== Sys2Proof/Word.lean ====
section
/-! DEFINITION. The widths of the words that cross DESPRIM's ports (spec/00_scope.md R8, spec/30_encoding.md R71). -/

namespace Sys2Proof

/-- R8 `WORD`: operands and results are 64-bit words, right-aligned (R9). -/
abbrev Word := BitVec 64

/-- R8 `CMD`: a command word has 16 bits (R72). -/
abbrev CmdWord := BitVec 16

/-- R8 `STATUS`: a status has 2 bits (R200). -/
abbrev StatusCode := BitVec 2

end Sys2Proof
end

