-- ==== Sys2Proof/Config.lean ====
section
/-! DEFINITION. The parameters of DESPRIM the spec leaves OPEN and that a rule's observable effect depends on
(spec/00_scope.md R8). They have no body: nothing in Lean can evaluate one or prove a value of it. No other
parameter exists; in particular no table is configurable (R8, R23). LATENCY has no definition: no rule depends on it
and the model counts no time (R236, log entry 1). -/

namespace Sys2Proof

/-- R203, D8, U1: RES_ON_ERROR, the value of the `res` port beside an error status, "any 64-bit value, drawn per
response and under no law". The argument is the number of the response (log entry 4). -/
opaque Config.resOnError : Nat → Word

/-- R214, D20: requests of several requesters are served in any order. The argument is the number of responses
delivered so far; the value picks whose turn it is (log entry 3). -/
opaque Config.serviceOrder : Nat → Nat

/-- U2 ("Only fairness: every accepted request is answered unless reset intervenes"): how many responses to others may
be delivered before the oldest outstanding request has to be served. The argument is the number of responses delivered
when that request became the oldest; any finite number is allowed, so every fair order is (log entry 3). -/
opaque Config.patience : Nat → Nat

end Sys2Proof
end

