-- ==== Sys2Proof/Syntax.lean ====
section
/-! DEFINITION. The operations of DESPRIM: one constructor per row of spec/opcode_table.json (spec/30_encoding.md R77).
The operand is no part of the command word; it comes on its own port (R71). -/

namespace Sys2Proof

/-- A command of the opcode map (R77). Only RSCHED and SBOX take an index (R74), an unsigned 8-bit number used as it
stands; it is kept as a natural number, since it only counts rounds or S-boxes (log entry 7). -/
inductive Instr where
  /-- op 0x01, R101 -/
  | ip
  /-- op 0x02, R102 -/
  | fp
  /-- op 0x03, R103 -/
  | e
  /-- op 0x04, R104 -/
  | p
  /-- op 0x05, R105 -/
  | pc1
  /-- op 0x06, R106 -/
  | pc2
  /-- op 0x11, R131 -/
  | ipinv
  /-- op 0x12, R132 -/
  | fpinv
  /-- op 0x13, R135 -/
  | einv
  /-- op 0x14, R133 -/
  | pinv
  /-- op 0x15, R137 -/
  | pc1inv
  /-- op 0x16, R143 -/
  | pc2inv
  /-- op 0x17, R136 -/
  | parity
  /-- op 0x20, R160 -/
  | ls
  /-- op 0x21, R161 -/
  | rs
  /-- op 0x22, R162: the round number `r` -/
  | rsched (r : Nat)
  /-- op 0x30, R181: the S-box number `n` -/
  | sbox (n : Nat)
  /-- op 0x31, R182 -/
  | sboxes
  deriving DecidableEq, Repr

end Sys2Proof
end

