-- ==== Sys2Proof/WellFormed.lean ====
section
/-! DEFINITION. Which terms of `Instr` a command word can spell (spec/30_encoding.md R72, R74, R81). -/

namespace Sys2Proof

/-- R72, R74: an index fits the 8-bit `idx` field. An index out of the operation's legal range is well-formed all the
same: "SBOX and RSCHED with an out-of-range `idx` are well-formed command words that always raise
INVALID_WIDTH_RANGE" (R81). -/
def Instr.wellFormed : Instr → Bool
  | .rsched r => decide (r < 2 ^ 8)
  | .sbox n => decide (n < 2 ^ 8)
  | .ip | .fp | .e | .p | .pc1 | .pc2 | .ipinv | .fpinv | .einv | .pinv | .pc1inv | .pc2inv | .parity
  | .ls | .rs | .sboxes => true

/-- The check as a decidable proposition. -/
abbrev Instr.WellFormed (i : Instr) : Prop := i.wellFormed = true

end Sys2Proof
end

