-- ==== Sys2Proof/Decode.lean ====
section
/-! DEFINITION. The command word: decoding, total on all 2^16 words, and after it the encoder
(spec/30_encoding.md R72 to R74, R77 to R82). -/

namespace Sys2Proof

/-- R72: the operation code, `cmd[7:0]`, unsigned (R73). -/
def opField (cmd : CmdWord) : Nat := (cmd.extractLsb' 0 8).toNat

/-- R72: the index operand, `cmd[15:8]`, unsigned and used as it stands (R74). -/
def idxField (cmd : CmdWord) : Nat := (cmd.extractLsb' 8 8).toNat

/-- Why a command word is illegal; both raise ILLEGAL_COMMAND (R204). -/
inductive DecodeError where
  /-- R79: `op` is none of the 18 assigned codes. -/
  | unassignedOp (op : Nat)
  /-- R80: a non-zero `idx` on an operation that takes no index. -/
  | nonzeroIdx (op idx : Nat)
  deriving DecidableEq, Repr

/-- R80: an operation that takes no index demands `idx = 0`. -/
def unindexed (op idx : Nat) (i : Instr) : Except DecodeError Instr :=
  if idx = 0 then .ok i else .error (.nonzeroIdx op idx)

/-- R77, R78: the opcode map read from the two fields. -/
def decodeFields (op idx : Nat) : Except DecodeError Instr :=
  match op with
  | 0x01 => unindexed op idx .ip
  | 0x02 => unindexed op idx .fp
  | 0x03 => unindexed op idx .e
  | 0x04 => unindexed op idx .p
  | 0x05 => unindexed op idx .pc1
  | 0x06 => unindexed op idx .pc2
  | 0x11 => unindexed op idx .ipinv
  | 0x12 => unindexed op idx .fpinv
  | 0x13 => unindexed op idx .einv
  | 0x14 => unindexed op idx .pinv
  | 0x15 => unindexed op idx .pc1inv
  | 0x16 => unindexed op idx .pc2inv
  | 0x17 => unindexed op idx .parity
  | 0x20 => unindexed op idx .ls
  | 0x21 => unindexed op idx .rs
  | 0x22 => .ok (.rsched idx)
  | 0x30 => .ok (.sbox idx)
  | 0x31 => unindexed op idx .sboxes
  | _ => .error (.unassignedOp op)

/-- R78: decode a command word. -/
def decode (cmd : CmdWord) : Except DecodeError Instr := decodeFields (opField cmd) (idxField cmd)

/-- R77: the operation code of each operation. -/
def Instr.opcode : Instr → Nat
  | .ip => 0x01
  | .fp => 0x02
  | .e => 0x03
  | .p => 0x04
  | .pc1 => 0x05
  | .pc2 => 0x06
  | .ipinv => 0x11
  | .fpinv => 0x12
  | .einv => 0x13
  | .pinv => 0x14
  | .pc1inv => 0x15
  | .pc2inv => 0x16
  | .parity => 0x17
  | .ls => 0x20
  | .rs => 0x21
  | .rsched _ => 0x22
  | .sbox _ => 0x30
  | .sboxes => 0x31

/-- R74: the index operand of each operation, 0 where it takes none (R80). -/
def Instr.index : Instr → Nat
  | .rsched r => r
  | .sbox n => n
  | .ip | .fp | .e | .p | .pc1 | .pc2 | .ipinv | .fpinv | .einv | .pinv | .pc1inv | .pc2inv | .parity
  | .ls | .rs | .sboxes => 0

/-- R83: "Each line assembles to one command word: `cmd = (idx << 8) | op`". An operation whose index does not fit the
8-bit field has no command word: what this gives for it is no word of it, and no line issues it (log entries 7 and 12). -/
def encode (i : Instr) : CmdWord := BitVec.ofNat 16 (i.index <<< 8 ||| i.opcode)

/-- The decoder on a word numbered as spec/opcode_table.json numbers it: every row is one 16-bit command word, bit 0
its least significant bit, and a bit at or above `nbits` is 0. -/
def decodeTableWord (nbits w : Nat) : Option Instr :=
  match decode (BitVec.ofNat 16 (w % 2 ^ nbits)) with
  | .ok i => some i
  | .error _ => none

end Sys2Proof
end

