-- ==== Sys2Proof/Machine/State.lean ====
section
/-! DEFINITION. What DESPRIM's interface holds between two transactions (spec/30_encoding.md R70, R71;
spec/70_reset_and_hazards.md R230 to R232). The block has no mutable architectural state of its own
(spec/10_state.md R20 to R26): no register, no program counter, no held flag, no memory. -/

namespace Sys2Proof.Machine

/-- The error causes a request can end with (spec/60_exceptions.md R200). None of them stops the machine: each is the
status of the response to the request that caused it (R206). -/
inductive Error where
  /-- R201: an operand or an index out of its declared width or range. -/
  | invalidWidthRange
  /-- R202: raised by EINV alone. -/
  | ambiguousInput
  /-- R204: raised by decoding, before any operation. -/
  | illegalCommand
  deriving DecidableEq, Repr

/-- R70: the response to a request, `OK(res)` or `ERR(status)`. "A model gives the error response no result value"
(R203). -/
inductive Response where
  | ok (res : Word)
  | err (e : Error)
  deriving DecidableEq, Repr

/-- R70: a request, a command word and an operand. `requester` says whose request it is: the platform's tag, which
no operation reads (R214, log entry 8). -/
structure Request where
  requester : Nat
  cmd : CmdWord
  opnd : Word
  deriving DecidableEq, Repr

/-- The machine has no fault: no request stops it. "Errors are precise and change no state" (R206), "After any error,
the next request is served as if no error had happened" (R207), so an error is a `Response` and this type has no
constructor (log entry 9). Safe: nothing the spec lets run is stopped. -/
inductive Fault where
  deriving DecidableEq, Repr

/-- Why a step has no meaning. -/
inductive Refusal where
  /-- An arm of `exec` that has no meaning yet, by its mnemonic; no arm of this model raises it. Safe: it stops where
  the hardware goes on. -/
  | notModelled (mnemonic : String)
  deriving DecidableEq, Repr

/-- The interface's state. -/
structure State where
  /-- The reset line: a request issued while it is asserted is not accepted (R230). -/
  resetAsserted : Bool
  /-- The requests accepted and not yet answered, oldest first (R230, R231, R236). -/
  outstanding : List Request
  /-- Whose request is on the ports: the model's own tag (R214, R236, log entry 8). -/
  requester : Nat
  /-- The command word port of the transaction in hand (R71). -/
  cmd : CmdWord
  /-- The operand port of the transaction in hand (R71). -/
  opnd : Word
  /-- What `status` and `res` carry while a response is delivered; none otherwise (R22, R71). -/
  response : Option Response
  /-- How many responses have been delivered: the model's own index of the free values (log entries 3, 4, 5). -/
  draw : Nat
  /-- How many responses to others have been delivered while the oldest outstanding request waited: the model's own, for
  the fairness of U2 (log entries 3 and 16). -/
  waited : Nat
  deriving DecidableEq, Repr

/-- R231, item by item: nothing outstanding and no response; reset has just been released (R232). The ports and the
model's own fields are 0 (log entries 5, 6 and 16). -/
def State.reset : State where
  resetAsserted := false
  outstanding := []
  requester := 0
  cmd := 0
  opnd := 0
  response := none
  draw := 0
  waited := 0

/-- What a step or a meaning answers. -/
abbrev Result := Host.Outcome State Fault Refusal

end Sys2Proof.Machine
end

