-- ==== Sys2Proof/Machine/Flags.lean ====
section
/-! DEFINITION. The only flag-like value of the block: the 2-bit status of a response, and the two output ports that
carry a response (spec/10_state.md R22, spec/60_exceptions.md R200, R203, spec/30_encoding.md R71). -/

namespace Sys2Proof.Machine

/-- R200: the code of each error cause. -/
def Error.code : Error → StatusCode
  | .invalidWidthRange => 1
  | .ambiguousInput => 2
  | .illegalCommand => 3

/-- R70, R200: `OK(res)` is delivered as status 0, `ERR(s)` as status `s`. -/
def Response.status : Response → StatusCode
  | .ok _ => 0
  | .err e => e.code

/-- R71, R22: the `status` port; it carries a value only while a response is delivered. -/
def State.statusPort (s : State) : Option StatusCode := s.response.map Response.status

/-- R71, R203: the `res` port. Beside an error it reads as RES_ON_ERROR, drawn for this response (log entry 4). -/
def State.resPort (s : State) : Option Word :=
  match s.response with
  | none => none
  | some (.ok v) => some v
  | some (.err _) => some (Config.resOnError s.draw)

end Sys2Proof.Machine
end

