-- ==== Sys2Proof/Machine/Bits.lean ====
section
/-! DEFINITION. Bits, DES positions, slices, population counts and the two directions of applying a table
(spec/00_scope.md R9 to R13, spec/10_state.md R35, R38). -/

namespace Sys2Proof.Machine

/-- R11 `v[k]`: the single integer bit `k`, as a word that is 0 or 1. -/
def bitAt (v : Word) (k : Nat) : Word := (v >>> k) &&& 1

/-- R10 `pos(v, w, p)`: the bit at DES position `p` of a value of logical width `w`; position 1 is the most significant. -/
def pos (v : Word) (w p : Nat) : Word := bitAt v (w - p)

/-- R11 `v[hi:lo]`: integer bits `hi` down to `lo`, as an unsigned value of width `hi - lo + 1`. -/
def slice (v : Word) (hi lo : Nat) : Word := (v >>> lo) &&& BitVec.ofNat 64 (2 ^ (hi - lo + 1) - 1)

/-- R11 `a ++ b` for a `wb`-bit `b`. -/
def concat (a b : Word) (wb : Nat) : Word := (a <<< wb) ||| b

/-- R13 `popcount(v)`, over the low `n` bits. -/
def popcountLow (v : Word) : Nat → Nat
  | 0 => 0
  | n + 1 => popcountLow v n + (v.getLsbD n).toNat

/-- R13 `popcount(v)`: the number of 1 bits. -/
def popcount (v : Word) : Nat := popcountLow v 64

/-- R12 `permute(T, win, v)`: output position `i` takes input position `T[i]`. The head of the list is position 1, so
its bit goes `len - 1` places up. -/
def permute : List Nat → Nat → Word → Word
  | [], _, _ => 0
  | t :: ts, win, v => (pos v win t <<< ts.length) ||| permute ts win v

/-- R12 `scatter(T, wout, v)`: input position `i` goes to output position `T[i]`; output positions that no `T[i]` names
are 0. Input position `i` of a `len`-bit word is its integer bit `len - i`. -/
def scatter : List Nat → Nat → Word → Word
  | [], _, _ => 0
  | t :: ts, wout, v => (bitAt v ts.length <<< (wout - t)) ||| scatter ts wout v

/-- R134 `outs(j)`: the output positions of E that take input position `j`, in order. -/
def outs (j : Nat) : List Nat := (List.range' 1 48).filter fun i => Tables.entry Tables.e i == j

/-- R35: byte `k` (1 to 8) of a word, DES positions 8k-7 to 8k; byte 1 is the most significant (R51). -/
def byteOf (v : Word) (k : Nat) : Word := slice v (71 - 8 * k) (64 - 8 * k)

/-- R38: the C half of a 56-bit key word, positions 1 to 28. -/
def halfC (v : Word) : Word := slice v 55 28

/-- R38: the D half of a 56-bit key word, positions 29 to 56. -/
def halfD (v : Word) : Word := slice v 27 0

end Sys2Proof.Machine
end

