-- ==== Sys2Proof/Machine/Operands.lean ====
section
/-! DEFINITION. The operand forms: the declared widths (spec/30_encoding.md R77), the width check (spec/00_scope.md R15),
the index ranges (R74), and results placed on the 64-bit port (R76). -/

namespace Sys2Proof.Machine

/-- R77 `win`: the declared input width of each operation. -/
def win : Instr → Nat
  | .ip | .fp | .pc1 | .ipinv | .fpinv | .parity => 64
  | .pc2 | .pc1inv | .ls | .rs => 56
  | .einv | .pc2inv | .sboxes => 48
  | .e | .p | .pinv => 32
  | .sbox _ => 6
  | .rsched _ => 0

/-- R77 `wout`: the declared output width of each operation. -/
def wout : Instr → Nat
  | .ip | .fp | .ipinv | .fpinv | .pc1inv | .parity => 64
  | .pc1 | .pc2inv | .ls | .rs => 56
  | .e | .pc2 => 48
  | .p | .einv | .pinv | .sboxes => 32
  | .sbox _ => 4
  | .rsched _ => 1

/-- R15 `check_width(v, w)`: passes exactly when `v < 2^w`; `check_width(v, 0)` requires `v = 0`. -/
def fitsWidth (v : Word) (w : Nat) : Bool := decide (v.toNat < 2 ^ w)

/-- R74: SBOX takes `n` with 1 <= n <= 8. -/
def sboxIndexLegal (n : Nat) : Bool := decide (1 ≤ n) && decide (n ≤ 8)

/-- R74: RSCHED takes `r` with 1 <= r <= 16. -/
def roundLegal (r : Nat) : Bool := decide (1 ≤ r) && decide (r ≤ 16)

/-- R9, R76 `zext_64(v)`: a small unsigned value on the 64-bit port, right-aligned, the rest zeros. -/
def zext64 (v : Nat) : Word := BitVec.ofNat 64 v

/-- R15, R75: the operand is checked against the declared width before anything is computed; it is never truncated. -/
def checked (w : Nat) (v : Word) (f : Word → Word) : Response :=
  if fitsWidth v w then .ok (f v) else .err .invalidWidthRange

end Sys2Proof.Machine
end

