-- ==== Sys2Proof/Machine/Ops.lean ====
section
/-! DEFINITION. The shared operations: delivering a response, `raise` and `return` (spec/00_scope.md R14), what the host
does at the interface (spec/30_encoding.md R70, spec/70_reset_and_hazards.md R230, R232) and how a host serialises a
word (spec/20_memory.md R51). The block has no memory and no register for an operation to reach (R20, R25). -/

namespace Sys2Proof.Machine

/-- R70: deliver the response of the transaction in hand. Nothing else changes (R55, R206); the model's own count of
responses advances, so that the next response draws afresh (log entry 5). -/
def State.deliver (s : State) (r : Response) : State :=
  { s with response := some r, draw := s.draw + 1 }

/-- R14 `return v`: the request ends with status OK and result `v`. -/
def returnWord (v : Word) (s : State) : Result := .next (s.deliver (.ok v))

/-- R14 `raise E`: the request ends with the status of `E`. It is all that taking an error is: no register saves
anything, no mode changes and control goes nowhere (R206); so there is nothing to return from (R208). -/
def raise (e : Error) (s : State) : Result := .next (s.deliver (.err e))

/-- End the transaction in hand with a response, by `return` or by `raise`. -/
def complete (r : Response) (s : State) : Result :=
  match r with
  | .ok v => returnWord v s
  | .err e => raise e s

/-- R70, R230: the host issues a request; while reset is asserted it is not accepted. -/
def State.issue (s : State) (q : Request) : State :=
  if s.resetAsserted then s else { s with outstanding := s.outstanding ++ [q] }

/-- R230: what reset does to the interface: every outstanding request is lost, with no response. What the input ports
carry through a reset the spec does not say; here they, and the tag, keep it (DESIGN CHOICE, log entry 6). -/
def State.dropAll (s : State) : State := { s with outstanding := [], response := none, waited := 0 }

/-- R230: the host asserts reset. A response still on the output ports ends (DEDUCED, log entry 15); the input ports and
the tag keep what they carry, so a reset in mid-run does not lead to `State.reset` (DESIGN CHOICE, log entry 6). -/
def State.assertReset (s : State) : State := { s.dropAll with resetAsserted := true }

/-- R232: the host releases reset; nothing needs to be loaded or chosen before the first request. -/
def State.releaseReset (s : State) : State := { s with resetAsserted := false }

/-- A step that has no request to serve: no response is delivered (R22, R70, log entry 13). -/
def State.idle (s : State) : State := { s with response := none }

/-- R51, D14: a word as the bytes a host sends, byte 1 (the most significant) first. -/
def serialise (v : Word) : List (BitVec 8) := (List.range' 1 8).map fun k => (byteOf v k).setWidth 8

/-- R51, D14: the word those bytes spell. -/
def deserialise (bs : List (BitVec 8)) : Word := bs.foldl (fun v b => concat v (b.setWidth 64) 8) 0

end Sys2Proof.Machine
end

