-- ==== Sys2Proof/Machine/Forward.lean ====
section
/-! DEFINITION. The forward permutations IP, FP, E, P, PC1 and PC2 (spec/40_permutations.md R100 to R106): what each
computes, its response to an operand, and its meaning. -/

namespace Sys2Proof.Machine

/-- R101. -/
def respIp (v : Word) : Response := checked 64 v (permute Tables.ip 64)

/-- R101 IP, Initial Permutation. -/
def execIp (s : State) : Result := complete (respIp s.opnd) s

/-- R102. -/
def respFp (v : Word) : Response := checked 64 v (permute Tables.fp 64)

/-- R102 FP, Final Permutation. -/
def execFp (s : State) : Result := complete (respFp s.opnd) s

/-- R103. -/
def respE (v : Word) : Response := checked 32 v (permute Tables.e 32)

/-- R103 E, Expansion. -/
def execE (s : State) : Result := complete (respE s.opnd) s

/-- R104. -/
def respP (v : Word) : Response := checked 32 v (permute Tables.p 32)

/-- R104 P, the straight permutation. -/
def execP (s : State) : Result := complete (respP s.opnd) s

/-- R105. -/
def respPc1 (v : Word) : Response := checked 64 v (permute Tables.pc1 64)

/-- R105 PC1, Permuted Choice 1. -/
def execPc1 (s : State) : Result := complete (respPc1 s.opnd) s

/-- R106. -/
def respPc2 (v : Word) : Response := checked 56 v (permute Tables.pc2 56)

/-- R106 PC2, Permuted Choice 2. -/
def execPc2 (s : State) : Result := complete (respPc2 s.opnd) s

end Sys2Proof.Machine
end

