-- ==== Sys2Proof/Machine/Inverse.lean ====
section
/-! DEFINITION. The inverse permutations and the parity recomputation: IPINV, FPINV, EINV, PINV, PC1INV, PC2INV and
PARITY (spec/41_inverses.md R130 to R143). -/

namespace Sys2Proof.Machine

/-- R131: IP's inverse is FP. -/
def respIpinv (v : Word) : Response := checked 64 v (permute Tables.fp 64)

/-- R131 IPINV. -/
def execIpinv (s : State) : Result := complete (respIpinv s.opnd) s

/-- R132: FP's inverse is IP. -/
def respFpinv (v : Word) : Response := checked 64 v (permute Tables.ip 64)

/-- R132 FPINV. -/
def execFpinv (s : State) : Result := complete (respFpinv s.opnd) s

/-- R135: whether the two copies of E's input position `j` hold different bits. -/
def copiesDisagree (v : Word) (j : Nat) : Bool :=
  match outs j with
  | i :: i' :: _ => pos v 48 i' != pos v 48 i
  | _ => false

/-- R135, R202: whether some duplicated input position of E has copies that disagree. -/
def ambiguous (v : Word) : Bool := (List.range' 1 32).any (copiesDisagree v)

/-- R135: for every `j` in the list, the bit of its first copy at output position `j`. -/
def gatherCopies (v : Word) : List Nat → Word
  | [] => 0
  | j :: js => (pos v 48 ((outs j).headD 0) <<< (32 - j)) ||| gatherCopies v js

/-- R135: the 32-bit word whose expansion `v` is. -/
def einvFn (v : Word) : Word := gatherCopies v (List.range' 1 32)

/-- R135: the width is checked first, then the copies. The rule's loop has one cause to raise and no effect before it,
so asking for it before computing is the same response (log entry 11). -/
def respEinv (v : Word) : Response :=
  if fitsWidth v 48 then
    if ambiguous v then .err .ambiguousInput else .ok (einvFn v)
  else .err .invalidWidthRange

/-- R135 EINV. -/
def execEinv (s : State) : Result := complete (respEinv s.opnd) s

/-- R133. -/
def respPinv (v : Word) : Response := checked 32 v (scatter Tables.p 32)

/-- R133 PINV. -/
def execPinv (s : State) : Result := complete (respPinv s.opnd) s

/-- R136: the parity bit that makes byte `k` of `v` odd, from its seven data bits. -/
def oddParityBit (v : Word) (k : Nat) : Word :=
  if popcount (slice v (71 - 8 * k) (65 - 8 * k)) % 2 = 0 then 1 else 0

/-- R136: put `p` in the parity bit of byte `k` of `y`. -/
def setParityBit (y : Word) (k : Nat) (p : Word) : Word :=
  (y &&& ~~~((1 : Word) <<< (64 - 8 * k))) ||| (p <<< (64 - 8 * k))

/-- R136: every byte's parity bit recomputed from the operand's data bits. -/
def parityFn (v : Word) : Word :=
  (List.range' 1 8).foldl (fun y k => setParityBit y k (oddParityBit v k)) v

/-- R136. -/
def respParity (v : Word) : Response := checked 64 v parityFn

/-- R136 PARITY. -/
def execParity (s : State) : Result := complete (respParity s.opnd) s

/-- R137: the 56 bits go to their key positions; the parity positions are 0 after that and are then recomputed. -/
def pc1invFn (v : Word) : Word := parityFn (scatter Tables.pc1 64 v)

/-- R137. -/
def respPc1inv (v : Word) : Response := checked 56 v pc1invFn

/-- R137 PC1INV. -/
def execPc1inv (s : State) : Result := complete (respPc1inv s.opnd) s

/-- R143: the eight positions PC2 never reads are 0. -/
def respPc2inv (v : Word) : Response := checked 48 v (scatter Tables.pc2 56)

/-- R143 PC2INV. -/
def execPc2inv (s : State) : Result := complete (respPc2inv s.opnd) s

end Sys2Proof.Machine
end

