-- ==== Sys2Proof/Machine/Rotate.lean ====
section
/-! DEFINITION. The rotation of the two 28-bit halves and the round shift schedule: LS, RS and RSCHED
(spec/42_rotate.md R160 to R162). -/

namespace Sys2Proof.Machine

/-- R160: a 28-bit half rotated left by one: position 1 moves to 28, p+1 to p. -/
def rotateHalfLeft (h : Word) : Word := ((h <<< 1) ||| (h >>> 27)) &&& 0xFFFFFFF

/-- R161: a 28-bit half rotated right by one: position 28 moves to 1, p to p+1. -/
def rotateHalfRight (h : Word) : Word := (h >>> 1) ||| ((h &&& 1) <<< 27)

/-- R160: both halves, each on its own. -/
def lsFn (v : Word) : Word := concat (rotateHalfLeft (halfC v)) (rotateHalfLeft (halfD v)) 28

/-- R161: both halves, each on its own. -/
def rsFn (v : Word) : Word := concat (rotateHalfRight (halfC v)) (rotateHalfRight (halfD v)) 28

/-- R160. -/
def respLs (v : Word) : Response := checked 56 v lsFn

/-- R160 LS. -/
def execLs (s : State) : Result := complete (respLs s.opnd) s

/-- R161. -/
def respRs (v : Word) : Response := checked 56 v rsFn

/-- R161 RS. -/
def execRs (s : State) : Result := complete (respRs s.opnd) s

/-- R162: the round number is checked first, then the operand must be 0. -/
def respRsched (r : Nat) (v : Word) : Response :=
  if roundLegal r then checked 0 v fun _ => zext64 (Tables.entry Tables.shift r)
  else .err .invalidWidthRange

/-- R162 RSCHED. -/
def execRsched (r : Nat) (s : State) : Result := complete (respRsched r s.opnd) s

end Sys2Proof.Machine
end

