-- ==== Sys2Proof/Machine/Sbox.lean ====
section
/-! DEFINITION. The S-box lookups SBOX and SBOXES (spec/43_sbox.md R180 to R182). -/

namespace Sys2Proof.Machine

/-- R180: the row, from the outer bits b1 and b6. -/
def sboxRow (v : Word) : Nat := ((bitAt v 5 <<< 1) ||| bitAt v 0).toNat

/-- R180: the column, from the inner bits b2 to b5. -/
def sboxCol (v : Word) : Nat := (slice v 4 1).toNat

/-- R180 `sbox_fn(n, v)`: `S_n[row(v)][col(v)]`. -/
def sboxFn (n : Nat) (v : Word) : Word :=
  zext64 (((Tables.sboxes.getD (n - 1) []).getD (sboxRow v) []).getD (sboxCol v) 0)

/-- R181: the index is checked first, then the operand's width. -/
def respSbox (n : Nat) (v : Word) : Response :=
  if sboxIndexLegal n then checked 6 v (sboxFn n) else .err .invalidWidthRange

/-- R181 SBOX. -/
def execSbox (n : Nat) (s : State) : Result := complete (respSbox n s.opnd) s

/-- R182: group `g` of a 48-bit word, positions 6g-5 to 6g, group 1 leftmost. -/
def sboxGroup (v : Word) (g : Nat) : Word := (v >>> (48 - 6 * g)) &&& 0x3F

/-- R182: for every group in the list, its lookup at positions 4g-3 to 4g. -/
def sboxLanes (v : Word) : List Nat → Word
  | [] => 0
  | g :: gs => (sboxFn g (sboxGroup v g) <<< (32 - 4 * g)) ||| sboxLanes v gs

/-- R182: the eight lookups; they are independent lanes. -/
def sboxesFn (v : Word) : Word := sboxLanes v (List.range' 1 8)

/-- R182. -/
def respSboxes (v : Word) : Response := checked 48 v sboxesFn

/-- R182 SBOXES. -/
def execSboxes (s : State) : Result := complete (respSboxes s.opnd) s

end Sys2Proof.Machine
end

