-- ==== Sys2Proof/Machine/Dispatch.lean ====
section
/-! DEFINITION. The meaning of every operation, one arm each. -/

namespace Sys2Proof.Machine

def exec (i : Instr) (s : State) : Host.Outcome State Fault Refusal :=
  match i with
  | .ip => Sys2Proof.Machine.execIp s
  | .fp => Sys2Proof.Machine.execFp s
  | .e => Sys2Proof.Machine.execE s
  | .p => Sys2Proof.Machine.execP s
  | .pc1 => Sys2Proof.Machine.execPc1 s
  | .pc2 => Sys2Proof.Machine.execPc2 s
  | .ipinv => Sys2Proof.Machine.execIpinv s
  | .fpinv => Sys2Proof.Machine.execFpinv s
  | .einv => Sys2Proof.Machine.execEinv s
  | .pinv => Sys2Proof.Machine.execPinv s
  | .pc1inv => Sys2Proof.Machine.execPc1inv s
  | .pc2inv => Sys2Proof.Machine.execPc2inv s
  | .parity => Sys2Proof.Machine.execParity s
  | .ls => Sys2Proof.Machine.execLs s
  | .rs => Sys2Proof.Machine.execRs s
  | .rsched r => Sys2Proof.Machine.execRsched r s
  | .sbox n => Sys2Proof.Machine.execSbox n s
  | .sboxes => Sys2Proof.Machine.execSboxes s

end Sys2Proof.Machine
end

