-- ==== Sys2Proof/Machine/Service.lean ====
section
/-! DEFINITION. Which outstanding request a transaction serves, and the transaction put on the ports
(spec/60_exceptions.md R214, spec/70_reset_and_hazards.md R236, spec/20_memory.md R58). Between requesters the order
is open but for fairness (spec/93_implementation_defined.md U2), so it is a free choice that cannot pass over the oldest
request for ever; within one requester it is the order of its requests (log entry 3). -/

namespace Sys2Proof.Machine

/-- Whose turn it is among the requests `q :: qs`: the requester of the request the free choice `k` points at, the
last one when it points past the end. -/
def turn (k : Nat) (q : Request) : List Request → Nat
  | [] => q.requester
  | q' :: qs =>
    match k with
    | 0 => q.requester
    | k + 1 => turn k q' qs
termination_by structural qs => qs

/-- D20, U2: the requester that is served, among the requests `q :: qs`: the free choice's, until the oldest request `q`
has waited for `patience` responses to others; then `q`'s. -/
def dueRequester (k patience waited : Nat) (q : Request) : List Request → Nat
  | [] => q.requester
  | q' :: qs => if patience ≤ waited then q.requester else turn k q (q' :: qs)

/-- R236: the oldest request of requester `h`, and the requests that stay outstanding. -/
def oldestOf (h : Nat) : List Request → Option (Request × List Request)
  | [] => none
  | q :: qs =>
    if q.requester = h then some (q, qs)
    else
      match oldestOf h qs with
      | none => none
      | some (r, rest) => some (r, q :: rest)

/-- The request the next transaction serves, and the requests that stay outstanding; none when nothing is outstanding. -/
def State.nextRequest (s : State) : Option (Request × List Request) :=
  match s.outstanding with
  | [] => none
  | q :: qs =>
    oldestOf (dueRequester (Config.serviceOrder s.draw) (Config.patience (s.draw - s.waited)) s.waited q qs) (q :: qs)

/-- How long the oldest outstanding request has waited once `q` is served: not at all when `q` is that request, for then
another becomes the oldest; one response more when it is not. It is exactly when it shares `q`'s requester (R236). -/
def State.waitedAfter (s : State) (q : Request) : Nat :=
  match s.outstanding with
  | [] => 0
  | p :: _ => if p.requester = q.requester then 0 else s.waited + 1

/-- R70, R71: the transaction begins: the request's command word and operand are on the ports. -/
def State.serve (s : State) (q : Request) (rest : List Request) : State :=
  { s with outstanding := rest, requester := q.requester, cmd := q.cmd, opnd := q.opnd,
           waited := s.waitedAfter q }

/-- R79, R80: a command word that does not decode raises ILLEGAL_COMMAND and computes nothing. -/
def illegal (_why : DecodeError) (s : State) : Result := raise .illegalCommand s

end Sys2Proof.Machine
end

