-- ==== Sys2Proof/Machine/Step.lean ====
section
/-! DEFINITION. One step: one whole transaction (spec/30_encoding.md R70, R71, R78; spec/20_memory.md R54). -/

namespace Sys2Proof.Machine

/-- While reset is asserted a step loses every outstanding request (R230). Otherwise it serves one outstanding request:
its words go on the ports, the command word is decoded (R78), and the operation runs or ILLEGAL_COMMAND is raised
(R79, R80). With nothing outstanding nothing is delivered. -/
def step (s : State) : Host.Outcome State Fault Refusal :=
  if s.resetAsserted then .next s.dropAll
  else
    match s.nextRequest with
    | none => .next s.idle
    | some (q, rest) =>
      match decode q.cmd with
      | .ok i => exec i (s.serve q rest)
      | .error why => illegal why (s.serve q rest)

/-- The state in which the very next step serves the command word `w` of spec/opcode_table.json: reset is released and
that one request is outstanding, with the operand that is on the port (log entry 14). -/
def State.withFetchWord (s : State) (nbits w : Nat) : State :=
  { s with
    resetAsserted := false
    outstanding := [⟨s.requester, BitVec.ofNat 16 (w % 2 ^ nbits), s.opnd⟩] }

end Sys2Proof.Machine
end

