-- ==== Sys2Proof/Machine/Program.lean ====
section
/-! DEFINITION. The host's program notation and the assembler (spec/30_encoding.md R83 to R86): numbered lines, each a
request or a `host:` line; operands that are literals, results `%k` or the host's own variables; the pseudo-instructions LS2
and RS2. All of it is the host's: no step of the machine reads it (log entries 12 and 17 to 19). -/

namespace Sys2Proof.Machine

/-! ## Lines -/

/-- R83: an operand is a hexadecimal literal or `%k`, the result of line `k` of the same program. The programs of
spec/95_test_vectors.md L3-3 also write a variable that a `host:` line has set (`E R0`). -/
inductive Operand where
  | lit (v : Word)
  | result (k : Nat)
  | var (x : String)
  deriving DecidableEq, Repr

/-- What a `host:` line computes with: unbounded naturals, under the operators of spec/00_scope.md R11 (log entry 18). -/
inductive HostExpr where
  | opnd (o : Operand)
  /-- `K[r]`: an element of a variable; `x` alone is its element 0. -/
  | elem (x : String) (i : HostExpr)
  /-- The result of the request issued last in the same line. -/
  | last
  /-- The status of the response to line `k` (log entry 19). -/
  | status (k : Nat)
  /-- The status of the response to the request issued last in the same line. -/
  | lastStatus
  | xor (a b : HostExpr)
  | and (a b : HostExpr)
  | or (a b : HostExpr)
  /-- `~`, "always masked to the width in hand" (R11). -/
  | not (width : Nat) (a : HostExpr)
  | shl (a : HostExpr) (n : Nat)
  | shr (a : HostExpr) (n : Nat)
  /-- `a[hi:lo]` (R11). -/
  | bits (a : HostExpr) (hi lo : Nat)
  deriving DecidableEq, Repr

/-- R84: what a `host:` line does, "such as an XOR, a conditional or a loop". The line itself issues no request; a
conditional or a loop may hold requests in its body, as spec/95_test_vectors.md L3-1 and L3-2 write them (log entry 18). -/
inductive HostCode where
  | skip
  | seq (a b : HostCode)
  /-- `x[i] <- e`. -/
  | assign (x : String) (i e : HostExpr)
  /-- A request in the body: operation `op` with the index `idx`, if it takes one, on operand `o`. -/
  | issue (op : Instr) (idx o : HostExpr)
  /-- `if a = b then yes else no`. -/
  | ifEq (a b : HostExpr) (yes no : HostCode)
  /-- `for x in lo..hi: body`. -/
  | loop (x : String) (lo hi : Nat) (body : HostCode)
  /-- End the program, the host's choice after an error for one (R207, log entry 19). -/
  | stop
  deriving DecidableEq, Repr

/-- R83 to R85: one line of a program as it is written. -/
inductive Line where
  /-- One request; RSCHED takes no operand and is issued with 0 (R83). -/
  | request (i : Instr) (o : Operand)
  /-- R85: LS, then LS of its result. -/
  | ls2 (o : Operand)
  /-- R85: RS, then RS of its result. -/
  | rs2 (o : Operand)
  /-- A command word written out, the form of line 6 of spec/95_test_vectors.md L3-4. -/
  | raw (cmd : CmdWord) (o : Operand)
  /-- R84: a line the host runs itself. -/
  | host (c : HostCode)
  deriving DecidableEq, Repr

/-- R84: a numbered line, LS2 and RS2 taken apart. -/
inductive NumberedLine where
  | request (i : Instr) (o : Operand)
  | raw (cmd : CmdWord) (o : Operand)
  | host (c : HostCode)
  deriving DecidableEq, Repr

/-- R84, R85: the numbered lines a line stands for, when the first of them is line `k` of the program. -/
def Line.numbered (k : Nat) : Line → List NumberedLine
  | .request i o => [.request i (if win i = 0 then .lit 0 else o)]
  | .ls2 o => [.request .ls o, .request .ls (.result k)]
  | .rs2 o => [.request .rs o, .request .rs (.result k)]
  | .raw cmd o => [.raw cmd o]
  | .host c => [.host c]

/-- R84 ("A program is a numbered list of lines. A line is either a DESPRIM request (rule R83) or a `host:` line"), R85:
the numbered lines of a program, the first of them line `k`. A `host:` line takes a number as a request does. -/
def expandFrom (k : Nat) : List Line → List NumberedLine
  | [] => []
  | l :: ls => l.numbered k ++ expandFrom (k + (l.numbered k).length) ls

/-- R84: the numbered lines of a program; line 1 is the first. -/
def expand (ls : List Line) : List NumberedLine := expandFrom 1 ls

/-! ## Lines as they are written -/

/-- R83: the name of an operation, in capitals (R77). -/
def mnemonic : Instr → String
  | .ip => "IP"
  | .fp => "FP"
  | .e => "E"
  | .p => "P"
  | .pc1 => "PC1"
  | .pc2 => "PC2"
  | .ipinv => "IPINV"
  | .fpinv => "FPINV"
  | .einv => "EINV"
  | .pinv => "PINV"
  | .pc1inv => "PC1INV"
  | .pc2inv => "PC2INV"
  | .parity => "PARITY"
  | .ls => "LS"
  | .rs => "RS"
  | .rsched _ => "RSCHED"
  | .sbox _ => "SBOX"
  | .sboxes => "SBOXES"

/-- R83: an operand as it is written. -/
def Operand.text : Operand → String
  | .lit v => "0x" ++ (String.ofList (Nat.toDigits 16 v.toNat)).toUpper
  | .result k => "%" ++ toString k
  | .var x => x

/-- R83: a request as it is written, `SBOX <n>, <opnd>`, `RSCHED <r>`, or `<MNEMONIC> <opnd>`. R83's forms stop at the legal
indices; an index out of range is written in the same form, as spec/43_sbox.md R181 writes `SBOX 0, 0x00` (DEDUCED, log
entry 17). -/
def requestText (i : Instr) (o : Operand) : String :=
  mnemonic i ++
    match i with
    | .rsched r => " " ++ toString r
    | .sbox n => " " ++ toString n ++ ", " ++ o.text
    | .ip | .fp | .e | .p | .pc1 | .pc2 | .ipinv | .fpinv | .einv | .pinv | .pc1inv | .pc2inv | .parity
    | .ls | .rs | .sboxes => " " ++ o.text

/-- R83, R85: a line as it is written; none where the spec fixes no form (`host:` pseudocode, a raw word). -/
def Line.text : Line → Option String
  | .request i o => some (requestText i o)
  | .ls2 o => some ("LS2 " ++ o.text)
  | .rs2 o => some ("RS2 " ++ o.text)
  | .raw _ _ | .host _ => none

/-! ## Running a program -/

/-- How the host's run of a program ended. -/
inductive HostEnd where
  /-- Every line was run. -/
  | finished
  /-- R84: a line used the result of a line whose status was not OK, or a value that there is not; that line and the ones
  after it are not issued. -/
  | failedOperand
  /-- A `host:` line ended the program. -/
  | stoppedByHost
  /-- A line has no command word or its operand does not fit the port: an index wider than the 8-bit field has no form in
  R83, and the program stops before it (DESIGN CHOICE, log entry 12). -/
  | notAssembled
  /-- R230: a request got no response (reset was asserted); the host must issue it again after reset. -/
  | noResponse
  deriving DecidableEq, Repr

/-- What the host holds while it runs a program. -/
structure HostState where
  /-- What each line so far ended with, line 1 first: its response, or none where it issued no request. -/
  lines : List (Option Response)
  /-- The host's variables: name, element, value. -/
  vars : List (String × Nat × Nat)
  /-- The response to the request issued last in the line in hand. -/
  last : Option Response
  /-- Every response received, the first one first. -/
  responses : List Response
  /-- The block the requests go to. -/
  block : State
  deriving DecidableEq, Repr

/-- The host at the start of a program on the block `s`. -/
def HostState.start (s : State) : HostState := ⟨[], [], none, [], s⟩

/-- Where a run has got to; `finished` lets it go on. -/
abbrev HostRun := HostEnd × HostState

/-- Go on, where nothing has stopped the program. -/
def HostRun.andThen (r : HostRun) (f : HostState → HostRun) : HostRun :=
  match r.1 with
  | .finished => f r.2
  | .failedOperand | .stoppedByHost | .notAssembled | .noResponse => r

/-- The result of a response that is one: none where there was no request or its status was not OK (R84). -/
def resultValue : Option Response → Option Nat
  | some (.ok v) => some v.toNat
  | some (.err _) | none => none

/-- Set a variable's element. -/
def HostState.set (σ : HostState) (x : String) (i v : Nat) : HostState :=
  { σ with vars := (x, i, v) :: σ.vars }

/-- The value of a variable's element, if it has been set. -/
def HostState.get (σ : HostState) (x : String) (i : Nat) : Option Nat :=
  (σ.vars.find? fun p => p.1 == x && p.2.1 == i).map fun p => p.2.2

/-- R84: what line `k` ended with; none where it issued no request or there is no such line. -/
def HostState.responseOf (σ : HostState) : Nat → Option Response
  | 0 => none
  | k + 1 => (σ.lines[k]?).join

/-- R84: the value an operand stands for; none where `%k` names a line whose status was not OK; and,
where the spec is silent, none where it names no earlier line or a variable has not been set (log entry 12). -/
def HostState.operand (σ : HostState) : Operand → Option Nat
  | .lit v => some v.toNat
  | .result k => resultValue (σ.responseOf k)
  | .var x => σ.get x 0

/-- Apply an operator to two values the host has. -/
def liftPair (f : Nat → Nat → Nat) : Option Nat → Option Nat → Option Nat
  | some a, some b => some (f a b)
  | some _, none | none, some _ | none, none => none

/-- The value of a host expression. -/
def HostState.eval (σ : HostState) : HostExpr → Option Nat
  | .opnd o => σ.operand o
  | .elem x i => (σ.eval i).bind (σ.get x)
  | .last => resultValue σ.last
  | .status k => (σ.responseOf k).map fun r => r.status.toNat
  | .lastStatus => σ.last.map fun r => r.status.toNat
  | .xor a b => liftPair (· ^^^ ·) (σ.eval a) (σ.eval b)
  | .and a b => liftPair (· &&& ·) (σ.eval a) (σ.eval b)
  | .or a b => liftPair (· ||| ·) (σ.eval a) (σ.eval b)
  | .not w a => (σ.eval a).map fun v => (2 ^ w - 1) ^^^ v % 2 ^ w
  | .shl a n => (σ.eval a).map (· <<< n)
  | .shr a n => (σ.eval a).map (· >>> n)
  | .bits a hi lo => (σ.eval a).map fun v => (v >>> lo) % 2 ^ (hi + 1 - lo)

/-- R70, R234: host `h` issues one request on a block that serves nobody else and waits for its response. A value that a
`host:` line has computed and the 64-bit port cannot carry is not issued (DESIGN CHOICE, log entry 12). -/
def HostState.issueWord (h : Nat) (cmd : CmdWord) (v : Nat) (σ : HostState) : HostRun :=
  if v < 2 ^ 64 then
    match step (σ.block.issue ⟨h, cmd, BitVec.ofNat 64 v⟩) with
    | .next t =>
      match t.response with
      | some r => (.finished, { σ with last := some r, responses := σ.responses ++ [r], block := t })
      | none => (.noResponse, { σ with block := t })
    | .fault f => nomatch f
    | .refused _ => (.noResponse, σ)
  else (.notAssembled, σ)

/-- R83: assemble a request and issue it. An index wider than the field has no command word (log entry 7), so such a request
is not issued and the program stops (DESIGN CHOICE, log entry 12). -/
def HostState.issueInstr (h : Nat) (i : Instr) (v : Nat) (σ : HostState) : HostRun :=
  if i.wellFormed then σ.issueWord h (encode i) v else (.notAssembled, σ)

/-- An operation with the index the host has computed, where it takes one (R74). -/
def withIndex (n : Nat) : Instr → Instr
  | .rsched _ => .rsched n
  | .sbox _ => .sbox n
  | .ip => .ip
  | .fp => .fp
  | .e => .e
  | .p => .p
  | .pc1 => .pc1
  | .pc2 => .pc2
  | .ipinv => .ipinv
  | .fpinv => .fpinv
  | .einv => .einv
  | .pinv => .pinv
  | .pc1inv => .pc1inv
  | .pc2inv => .pc2inv
  | .parity => .parity
  | .ls => .ls
  | .rs => .rs
  | .sboxes => .sboxes

/-- R84: what a `host:` line does. -/
def runHostCode (h : Nat) : HostCode → HostState → HostRun
  | .skip => fun σ => (.finished, σ)
  | .seq a b => fun σ => (runHostCode h a σ).andThen (runHostCode h b)
  | .assign x i e => fun σ =>
    match σ.eval i, σ.eval e with
    | some j, some v => (.finished, σ.set x j v)
    | some _, none | none, some _ | none, none => (.failedOperand, σ)
  | .issue op idx o => fun σ =>
    match σ.eval idx, σ.eval o with
    | some n, some v => σ.issueInstr h (withIndex n op) v
    | some _, none | none, some _ | none, none => (.failedOperand, σ)
  | .ifEq a b yes no => fun σ =>
    match σ.eval a, σ.eval b with
    | some m, some n => if m = n then runHostCode h yes σ else runHostCode h no σ
    | some _, none | none, some _ | none, none => (.failedOperand, σ)
  | .loop x lo hi body => fun σ =>
    (List.range' lo (hi + 1 - lo)).foldl (fun r n => r.andThen fun σ => runHostCode h body (σ.set x 0 n)) (.finished, σ)
  | .stop => fun σ => (.stoppedByHost, σ)

/-- The line in hand is done: what it ended with is what its number names from now on. Of a `host:` line that is what its
body's last request ended with, if it issued one (DESIGN CHOICE, log entry 18). -/
def HostState.endLine (σ : HostState) : HostState := { σ with lines := σ.lines ++ [σ.last], last := none }

/-- What a line does, before its number is recorded. -/
def runBody (h : Nat) : NumberedLine → HostState → HostRun
  | .request i o, σ =>
    match σ.operand o with
    | some v => σ.issueInstr h i v
    | none => (.failedOperand, σ)
  | .raw cmd o, σ =>
    match σ.operand o with
    | some v => σ.issueWord h cmd v
    | none => (.failedOperand, σ)
  | .host c, σ => runHostCode h c σ

/-- R84: run numbered lines one after another (R86). "Whether an error ends the host program or is handled is the host's
choice" (R207): a line whose status was not OK is recorded and the run goes on, as in spec/95_test_vectors.md L3-4, until a
line uses its result (R84) or a `host:` line that reads the status stops the program (DESIGN CHOICE, log entry 19). -/
def runLines (h : Nat) : List NumberedLine → HostState → HostRun
  | [], σ => (.finished, σ)
  | l :: ls, σ => (runBody h l σ).andThen fun σ => runLines h ls σ.endLine

/-- R84: run a program from a state of the block; what the host holds at the end. -/
def runHost (h : Nat) (ls : List Line) (s : State) : HostRun := runLines h (expand ls) (.start s)

/-- R84: run a program; how it ended, the responses and the block. -/
def runProgram (h : Nat) (ls : List Line) (s : State) : HostEnd × List Response × State :=
  ((runHost h ls s).1, (runHost h ls s).2.responses, (runHost h ls s).2.block)

end Sys2Proof.Machine
end

