-- ==== Sys2Proof/Machine/DecodeAndRun.lean ====
section
/-! DEFINITION. The response function of the block, `F` of spec/20_memory.md R58, written line by line from
`decode_and_run` of spec/30_encoding.md R78: raw fields and an ordered list of checks, without `decode`, `Instr` or a
state. The step does not use it; that the step answers it is a statement. -/

namespace Sys2Proof.Machine

/-- R78: the 18 assigned operation codes, as ranges. -/
def assignedOps : List Nat := List.range' 0x01 6 ++ List.range' 0x11 7 ++ List.range' 0x20 3 ++ [0x30, 0x31]

/-- R77: the declared input width by operation code. -/
def opWidths : List (Nat × Nat) :=
  [(0x01, 64), (0x02, 64), (0x03, 32), (0x04, 32), (0x05, 64), (0x06, 56)] ++
  [(0x11, 64), (0x12, 64), (0x13, 48), (0x14, 32), (0x15, 56), (0x16, 48), (0x17, 64)] ++
  [(0x20, 56), (0x21, 56), (0x22, 0), (0x30, 6), (0x31, 48)]

/-- R78 "run the operation's rule": what each operation computes from an operand whose width has been checked. -/
def runRule (op idx : Nat) (v : Word) : Response :=
  match op with
  | 0x01 => .ok (permute Tables.ip 64 v)
  | 0x02 => .ok (permute Tables.fp 64 v)
  | 0x03 => .ok (permute Tables.e 32 v)
  | 0x04 => .ok (permute Tables.p 32 v)
  | 0x05 => .ok (permute Tables.pc1 64 v)
  | 0x06 => .ok (permute Tables.pc2 56 v)
  | 0x11 => .ok (permute Tables.fp 64 v)
  | 0x12 => .ok (permute Tables.ip 64 v)
  | 0x13 => if ambiguous v then .err .ambiguousInput else .ok (einvFn v)
  | 0x14 => .ok (scatter Tables.p 32 v)
  | 0x15 => .ok (pc1invFn v)
  | 0x16 => .ok (scatter Tables.pc2 56 v)
  | 0x17 => .ok (parityFn v)
  | 0x20 => .ok (lsFn v)
  | 0x21 => .ok (rsFn v)
  | 0x22 => .ok (zext64 (Tables.entry Tables.shift idx))
  | 0x30 => .ok (sboxFn idx v)
  | 0x31 => .ok (sboxesFn v)
  | _ => .err .illegalCommand

/-- R78 `decode_and_run`: the checks in the rule's order (R205); the first that fails decides the status. -/
def decodeAndRun (cmd : CmdWord) (opnd : Word) : Response :=
  let op := cmd.toNat % 256
  let idx := cmd.toNat / 256
  if op ∉ assignedOps then .err .illegalCommand
  else if op ∉ [0x22, 0x30] ∧ idx ≠ 0 then .err .illegalCommand
  else if op = 0x30 ∧ ¬(1 ≤ idx ∧ idx ≤ 8) then .err .invalidWidthRange
  else if op = 0x22 ∧ ¬(1 ≤ idx ∧ idx ≤ 16) then .err .invalidWidthRange
  else if ¬ opnd.toNat < 2 ^ (opWidths.lookup op).getD 0 then .err .invalidWidthRange
  else runRule op idx opnd

end Sys2Proof.Machine
end

