-- ==== Sys2Proof/Safety.lean ====
section
/-! DEFINITION. The terms the statements use: what it is to answer a request, to apply a table, and to be a consistent
interface; and the record of the answers along a run. -/

namespace Sys2Proof.Machine

/-- Operation `i` on operand `v` ends with response `r`, in every state whose operand port carries `v`, and changes
nothing but the delivery of it. -/
def Answers (i : Instr) (v : Word) (r : Response) : Prop :=
  ∀ s : State, s.opnd = v → exec i s = .next (s.deliver r)

/-- The contract of `permute` position by position (spec/00_scope.md R12): `r` has the table's length as its width, and
its bit at position `i` equals the bit of `v` at position `T[i]`. -/
def Selects (T : List Nat) (w : Nat) (v r : Word) : Prop :=
  r.toNat < 2 ^ T.length ∧
    ∀ i, 1 ≤ i → i ≤ T.length → pos r T.length i = pos v w (Tables.entry T i)

/-- The contract of `scatter` position by position (R12): input position `i` is found at output position `T[i]`, and the
output positions that no `T[i]` names are 0. -/
def Scatters (T : List Nat) (w : Nat) (v r : Word) : Prop :=
  r.toNat < 2 ^ w ∧
    (∀ i, 1 ≤ i → i ≤ T.length → pos r w (Tables.entry T i) = pos v T.length i) ∧
    ∀ p, 1 ≤ p → p ≤ w → p ∉ T → pos r w p = 0

/-- Every byte of `r` has odd parity, and its seven data bits are those of `v` (spec/10_state.md R35, spec/41_inverses.md
R136). -/
def OddParityOf (v r : Word) : Prop :=
  ∀ k, 1 ≤ k → k ≤ 8 →
    popcount (byteOf r k) % 2 = 1 ∧ slice r (71 - 8 * k) (65 - 8 * k) = slice v (71 - 8 * k) (65 - 8 * k)

/-- Some duplicated input position of E stands at two output positions of `v` that hold different bits (R202). -/
def CopiesConflict (v : Word) : Prop :=
  ∃ i i', 1 ≤ i ∧ i ≤ 48 ∧ 1 ≤ i' ∧ i' ≤ 48 ∧ Tables.entry Tables.e i = Tables.entry Tables.e i' ∧
    pos v 48 i ≠ pos v 48 i'

/-- The index of an operation is one it takes (spec/30_encoding.md R74, R80). -/
def indexLegal : Instr → Bool
  | .rsched r => decide (1 ≤ r ∧ r ≤ 16)
  | .sbox n => decide (1 ≤ n ∧ n ≤ 8)
  | .ip | .fp | .e | .p | .pc1 | .pc2 | .ipinv | .fpinv | .einv | .pinv | .pc1inv | .pc2inv | .parity
  | .ls | .rs | .sboxes => true

/-- The check as a decidable proposition. -/
abbrev IndexLegal (i : Instr) : Prop := indexLegal i = true

/-- R81: a command word that can succeed. -/
def wordCanSucceed : Except DecodeError Instr → Bool
  | .ok i => indexLegal i
  | .error _ => false

/-- R81: a well-formed command word whose index is out of range. -/
def wordOutOfRange : Except DecodeError Instr → Bool
  | .ok i => !indexLegal i
  | .error _ => false

/-- R81: an illegal command word. -/
def wordIllegal : Except DecodeError Instr → Bool
  | .ok _ => false
  | .error _ => true

/-- `n` requests of operation `i`, each on the result of the one before, lead from `v` to `r`. -/
def Repeats (i : Instr) : Nat → Word → Word → Prop
  | 0, v, r => v = r
  | n + 1, v, r => ∃ u, Answers i v (.ok u) ∧ Repeats i n u r

/-- `n` rounds of the schedule from round `r0` on lead from `v` to `r`: each reads its flag by RSCHED and applies LS once,
and once more when the flag is 1 (spec/42_rotate.md R164). -/
def ScheduleWalk : Nat → Nat → Word → Word → Prop
  | _, 0, v, r => v = r
  | r0, n + 1, v, r =>
    ∃ flag u, Answers (.rsched r0) 0 (.ok flag) ∧ Repeats .ls (1 + flag.toNat) v u ∧ ScheduleWalk (r0 + 1) n u r

/-- The interface is consistent: a response on the output ports is the response to the request on the input ports
(spec/20_memory.md R54, R58), and while reset is asserted nothing is outstanding or delivered (R230). -/
def State.Inv (s : State) : Prop :=
  (∀ r, s.response = some r → r = decodeAndRun s.cmd s.opnd) ∧
    (s.resetAsserted = true → s.outstanding = [] ∧ s.response = none)

/-- The request on the ports. -/
def State.onPorts (s : State) : Request := ⟨s.requester, s.cmd, s.opnd⟩

/-- The requests answered in the next `n` steps, each with its response, in the order of the answers. -/
def answered : Nat → State → List (Request × Response)
  | 0, _ => []
  | n + 1, s =>
    match step s with
    | .next t =>
      match t.response with
      | some r => (t.onPorts, r) :: answered n t
      | none => answered n t
    | .fault _ | .refused _ => []

/-- The host issues requests one after another. -/
def State.issueAll (s : State) (qs : List Request) : State := qs.foldl State.issue s

/-- The requests answered along a run during which the host issues more: before each step the next of `arrivals`. Each
request stands with its response, in the order of the answers. -/
def answeredAmid : List (List Request) → State → List (Request × Response)
  | [], _ => []
  | qs :: arrivals, s =>
    match step (s.issueAll qs) with
    | .next t =>
      match t.response with
      | some r => (t.onPorts, r) :: answeredAmid arrivals t
      | none => answeredAmid arrivals t
    | .fault _ | .refused _ => []

/-- `n` steps, as far as no fault or refusal stops them. -/
def runSteps : Nat → State → Result
  | 0, s => .next s
  | n + 1, s =>
    match step s with
    | .next t => runSteps n t
    | .fault f => .fault f
    | .refused r => .refused r

/-- The requests of one requester, in order. -/
def ofRequester (h : Nat) (qs : List Request) : List Request := qs.filter fun q => q.requester == h

end Sys2Proof.Machine
end

