-- ==== Sys2Proof/Certificates/Slice0/Obligations.lean ====
section
/-! DEFINITION. The statements for the provers, in the order of OBLIGATIONS.json. `Answers i v r`, `Selects`,
`Scatters` and the other terms are those of Sys2Proof/Safety.lean. A statement about one operation says
its rule whole: the words that encode it, the pseudocode's result for every operand, its errors, and last the corner
cases and the example, which the spec marks as derived or as general knowledge (log entry 10) and which follow from
the pseudocode. -/

open Sys2Proof Sys2Proof.Machine

/-! ## The command word -/

/-- 30_encoding.md R72, R77, R83: decoding the assembled word of a well-formed operation gives the operation back,
with its index at every value the 8-bit field admits. -/
def Obligations.DecodeOfEncodeIsTheOperation : Prop :=
  ∀ i : Instr, i.WellFormed → decode (encode i) = .ok i

/-- 30_encoding.md R72, R77: a word that decodes is the assembled word of the operation it decodes to, and that
operation is well-formed: every legal word has one meaning. -/
def Obligations.EncodeOfDecodeIsTheWord : Prop :=
  ∀ (w : CmdWord) (i : Instr), decode w = .ok i → i.WellFormed ∧ encode i = w

/-- Words written out from the fields of R72 and the codes of R77, one or two of each family. -/
def Obligations.WrittenWordsDecode : Prop :=
  decode 0b00000000_00000011#16 = .ok .e ∧ decode 0b00000000_00000110#16 = .ok .pc2 ∧
  decode 0b00000000_00010011#16 = .ok .einv ∧ decode 0b00000000_00010111#16 = .ok .parity ∧
  decode 0b00000000_00100001#16 = .ok .rs ∧ decode 0b00010000_00100010#16 = .ok (.rsched 16) ∧
  decode 0b00000101_00110000#16 = .ok (.sbox 5) ∧ decode 0b00000000_00110001#16 = .ok .sboxes ∧
  decode 0b00000000_00000111#16 = .error (.unassignedOp 0x07) ∧
  decode 0b00000001_00000001#16 = .error (.nonzeroIdx 0x01 1)

/-- 30_encoding.md R81: of the 2^16 command words, one for each pair of fields, 40 can succeed, 488 are well-formed and
always raise INVALID_WIDTH_RANGE, and 65008 are illegal. -/
def Obligations.CommandWordCounts : Prop :=
  (∀ op idx, op < 256 → idx < 256 → ∃! w : CmdWord, opField w = op ∧ idxField w = idx) ∧
  ((List.range 256).map fun op => (List.range 256).countP fun idx =>
    wordCanSucceed (decodeFields op idx)).sum = 40 ∧
  ((List.range 256).map fun op => (List.range 256).countP fun idx =>
    wordOutOfRange (decodeFields op idx)).sum = 488 ∧
  ((List.range 256).map fun op => (List.range 256).countP fun idx =>
    wordIllegal (decodeFields op idx)).sum = 65008 ∧
  (∀ i : Instr, IndexLegal i → ∃ v, Answers i 0 (.ok v)) ∧
  (∀ i : Instr, ¬ IndexLegal i → ∀ v, Answers i v (.err .invalidWidthRange))

/-- 30_encoding.md R79: each of the 238 unassigned `op` values raises ILLEGAL_COMMAND, whatever `idx` and the operand
hold, and nothing is computed: the response carries no result and nothing else changes. -/
def Obligations.UnassignedOpIsIllegal : Prop :=
  ((List.range 256).countP fun op => decide (op ∉ assignedOps)) = 238 ∧
  ∀ (s : State) (q : Request) (rest : List Request), s.resetAsserted = false → s.nextRequest = some (q, rest) →
    opField q.cmd ∉ assignedOps → step s = .next ((s.serve q rest).deliver (.err .illegalCommand))

/-- 30_encoding.md R80: a non-zero `idx` on an assigned operation other than RSCHED and SBOX is illegal, whatever the
operand holds. -/
def Obligations.IndexOnUnindexedOpIsIllegal : Prop :=
  ∀ (s : State) (q : Request) (rest : List Request), s.resetAsserted = false → s.nextRequest = some (q, rest) →
    opField q.cmd ∈ assignedOps → opField q.cmd ≠ 0x22 → opField q.cmd ≠ 0x30 → idxField q.cmd ≠ 0 →
    step s = .next ((s.serve q rest).deliver (.err .illegalCommand))

/-! ## The step -/

/-- What a step adds around `exec`: the request it serves is put on the ports and leaves the outstanding ones, its
command word is decoded, and the decoded operation runs there; an illegal word raises ILLEGAL_COMMAND; with nothing
outstanding, and under reset, no operation runs. (What an idle step leaves is the model's choice, log entry 13; that
the input ports and the tag keep their values through a reset is the model's choice, log entry 6; `waited` is its own
count, log entry 16.) -/
def Obligations.StepRunsTheDecodedRequest : Prop :=
  (∀ (s : State) (q : Request) (rest : List Request) (i : Instr), s.resetAsserted = false →
    s.nextRequest = some (q, rest) → decode q.cmd = .ok i → step s = exec i (s.serve q rest)) ∧
  (∀ (s : State) (q : Request) (rest : List Request) (why : DecodeError), s.resetAsserted = false →
    s.nextRequest = some (q, rest) → decode q.cmd = .error why →
    step s = .next ((s.serve q rest).deliver (.err .illegalCommand))) ∧
  (∀ s : State, s.resetAsserted = false → s.outstanding = [] → step s = .next { s with response := none }) ∧
  (∀ s : State, s.resetAsserted = true → step s = .next { s with outstanding := [], response := none, waited := 0 })

/-- 30_encoding.md R78: a step outside reset that has a request to serve answers `decode_and_run` of its command word
and operand, for all 2^16 words and all 2^64 operands. -/
def Obligations.StepAnswersDecodeAndRun : Prop :=
  ∀ (s : State) (q : Request) (rest : List Request), s.resetAsserted = false → s.nextRequest = some (q, rest) →
    step s = .next ((s.serve q rest).deliver (decodeAndRun q.cmd q.opnd))

/-- 60_exceptions.md R204, R205: the status of a request is the first that applies: ILLEGAL_COMMAND, the index range,
the operand width, ambiguity. -/
def Obligations.StatusFollowsThePriority : Prop :=
  ∀ (s : State) (q : Request) (rest : List Request), s.resetAsserted = false → s.nextRequest = some (q, rest) →
    ∃ t : State, step s = .next t ∧
      ((opField q.cmd ∉ assignedOps ∨ opField q.cmd ∉ [0x22, 0x30] ∧ idxField q.cmd ≠ 0) →
        t.statusPort = some 3) ∧
      (¬ (opField q.cmd ∉ assignedOps ∨ opField q.cmd ∉ [0x22, 0x30] ∧ idxField q.cmd ≠ 0) →
        ∃ i : Instr, i.opcode = opField q.cmd ∧ i.index = idxField q.cmd ∧
          (¬ IndexLegal i → t.statusPort = some 1) ∧
          (IndexLegal i → 2 ^ win i ≤ q.opnd.toNat → t.statusPort = some 1) ∧
          (i = .einv → q.opnd.toNat < 2 ^ win i → CopiesConflict q.opnd → t.statusPort = some 2) ∧
          (IndexLegal i → q.opnd.toNat < 2 ^ win i → ¬ (i = .einv ∧ CopiesConflict q.opnd) →
            t.statusPort = some 0))

/-- 10_state.md R26: two steps that serve the same command word and operand deliver the same response, whatever else
their states hold: what came before, what is in flight, whose request it is, and what the ports carried. -/
def Obligations.ResponseDependsOnTheRequestAlone : Prop :=
  ∀ (s s' : State) (q q' : Request) (rest rest' : List Request),
    s.resetAsserted = false → s'.resetAsserted = false →
    s.nextRequest = some (q, rest) → s'.nextRequest = some (q', rest') → q.cmd = q'.cmd → q.opnd = q'.opnd →
    ∃ (t t' : State) (r : Response), step s = .next t ∧ step s' = .next t' ∧
      t.response = some r ∧ t'.response = some r

/-- 60_exceptions.md R207: after any error the next request is served as if no error had happened: no step reads the
response of the one before. -/
def Obligations.StepIgnoresTheLastResponse : Prop :=
  ∀ (s : State) (r : Option Response), step { s with response := r } = step s

/-- 20_memory.md R55, 60_exceptions.md R206: an operation, in error or not, changes nothing but its own response: it
leaves the outstanding requests, the reset line and the input ports as they are. (`draw` and `waited` are
the model's own counts, log entries 5 and 16.) -/
def Obligations.OperationFrame : Prop :=
  ∀ (i : Instr) (s t : State), exec i s = .next t →
    t.outstanding = s.outstanding ∧ t.resetAsserted = s.resetAsserted ∧ t.requester = s.requester ∧
    t.cmd = s.cmd ∧ t.opnd = s.opnd ∧ t.waited = s.waited ∧ t.draw = s.draw + 1 ∧ ∃ r, t.response = some r

/-- 60_exceptions.md R206: nothing stops the block: every operation, in every state and with every index and operand,
ends with a response. -/
def Obligations.EveryOperationEndsWithAResponse : Prop :=
  ∀ (i : Instr) (s : State), ∃ r : Response, exec i s = .next (s.deliver r)

/-- When an operation succeeds: its index is legal, its operand fits its declared width and, for EINV alone, the copies
agree; its result is then no wider than its declared width (00_scope.md R16). -/
def Obligations.EveryOperationCompletes : Prop :=
  ∀ (i : Instr) (s : State), IndexLegal i → s.opnd.toNat < 2 ^ win i → ¬ (i = .einv ∧ CopiesConflict s.opnd) →
    ∃ v : Word, exec i s = .next (s.deliver (.ok v)) ∧ v.toNat < 2 ^ wout i

/-- 00_scope.md R16: every successful result has the bits from its declared width up equal to zero. -/
def Obligations.ResultsAreRightAligned : Prop :=
  ∀ (i : Instr) (s t : State) (v : Word), exec i s = .next t → t.response = some (.ok v) →
    ∀ k, wout i ≤ k → v.getLsbD k = false

/-- 00_scope.md R15, 60_exceptions.md R201: INVALID_WIDTH_RANGE is raised exactly when the operand reaches `2^win` or
the index of SBOX or RSCHED is out of range, and it can never occur for the six operations whose `win` is 64. -/
def Obligations.WidthAndRangeErrors : Prop :=
  (∀ (i : Instr) (s : State), (2 ^ win i ≤ s.opnd.toNat ∨
      (∃ n, i = .sbox n ∧ ¬ (1 ≤ n ∧ n ≤ 8)) ∨ (∃ r, i = .rsched r ∧ ¬ (1 ≤ r ∧ r ≤ 16))) ↔
    exec i s = .next (s.deliver (.err .invalidWidthRange))) ∧
  (∀ i ∈ [Instr.ip, .fp, .pc1, .ipinv, .fpinv, .parity], win i = 64 ∧
    ∀ s : State, exec i s ≠ .next (s.deliver (.err .invalidWidthRange)))

/-- 60_exceptions.md R202: AMBIGUOUS_INPUT is raised only by EINV, when the two output positions of some duplicated
input position of E hold different bits. -/
def Obligations.AmbiguityComesFromEinvAlone : Prop :=
  ∀ (i : Instr) (s : State), exec i s = .next (s.deliver (.err .ambiguousInput)) ↔
    i = .einv ∧ s.opnd.toNat < 2 ^ 48 ∧ CopiesConflict s.opnd

/-- 60_exceptions.md R200: the four codes, which are distinct, and that no operation itself raises code 3. -/
def Obligations.StatusCodes : Prop :=
  (∀ v, (Response.ok v).status = 0) ∧ (Response.err .invalidWidthRange).status = 1 ∧
  (Response.err .ambiguousInput).status = 2 ∧ (Response.err .illegalCommand).status = 3 ∧
  (∀ (i : Instr) (s t : State), exec i s = .next t → t.statusPort ≠ some 3)

/-- 60_exceptions.md R203: an error response has no result; what the `res` port reads as beside it is the free value
drawn for that response (log entry 4), whatever its number is. A success carries its result. -/
def Obligations.ErrorCarriesNoResult : Prop :=
  (∀ (s : State) (e : Error), ∀ v, (s.deliver (.err e)).response ≠ some (.ok v)) ∧
  (∀ (s : State) (e : Error), (s.deliver (.err e)).resPort = some (Config.resOnError (s.draw + 1))) ∧
  (∀ (s : State) (v : Word), (s.deliver (.ok v)).resPort = some v ∧ (s.deliver (.ok v)).statusPort = some 0)

/-! ## The interface over many steps -/

/-- 20_memory.md R54, R58, 70_reset_and_hazards.md R230: every step keeps the interface consistent: what the output
ports carry is the response to what the input ports carry, and under reset nothing is outstanding or delivered. -/
def Obligations.StepKeepsTheInterfaceConsistent : Prop :=
  ∀ s t : State, s.Inv → step s = .next t → t.Inv

/-- The state after reset is consistent (70_reset_and_hazards.md R231). -/
def Obligations.ResetIsConsistent : Prop := State.reset.Inv

/-- What the host does at the interface keeps it consistent. -/
def Obligations.HostKeepsTheInterfaceConsistent : Prop :=
  ∀ (s : State) (q : Request), s.Inv → (s.issue q).Inv ∧ s.assertReset.Inv ∧ s.releaseReset.Inv

/-- From 20_memory.md section 4 (the response to each request is `F` of it, in whatever order they are served) and
70_reset_and_hazards.md section 4 (each requester's own order): over as many steps as requests are outstanding, every
request is answered exactly once. That a step answers one request is the model's choice (log entry 1), and so is how the
order between requesters is drawn (log entry 3); the statement holds for every value of that draw. -/
def Obligations.EachRequestIsAnsweredOnce : Prop :=
  ∀ s : State, s.resetAsserted = false →
    ((answered s.outstanding.length s).map Prod.fst).Perm s.outstanding ∧
    (∀ a ∈ answered s.outstanding.length s, a.2 = decodeAndRun a.1.cmd a.1.opnd) ∧
    (∀ h, ofRequester h ((answered s.outstanding.length s).map Prod.fst) = ofRequester h s.outstanding)

/-- 93_implementation_defined.md U2: every accepted request is answered unless reset intervenes. When the host issues no
more, none is outstanding after as many steps as requests are; and there is a number of steps by which all that are
outstanding have been answered, whatever requests the host goes on to issue before each of those steps. How long a request
may be passed over is the model's free value (log entry 3), and the statement holds for every value of it; that a step
answers one request is log entry 1. -/
def Obligations.BacklogIsServed : Prop :=
  ∀ s : State, s.resetAsserted = false →
    (∃ t : State, runSteps s.outstanding.length s = .next t ∧ t.outstanding = [] ∧
      t.draw = s.draw + s.outstanding.length) ∧
    ∃ n, ∀ arrivals : List (List Request), arrivals.length = n →
      s.outstanding.Subperm ((answeredAmid arrivals s).map Prod.fst)

/-- 70_reset_and_hazards.md R236: the request served is the oldest of its requester, and no requester's other requests
change place. -/
def Obligations.ServiceKeepsEachRequestersOrder : Prop :=
  ∀ (s : State) (q : Request) (rest : List Request), s.nextRequest = some (q, rest) →
    ofRequester q.requester s.outstanding = q :: ofRequester q.requester rest ∧
    ∀ h, h ≠ q.requester → ofRequester h rest = ofRequester h s.outstanding

/-- 92_eei_decisions.md D20 (the model's free choice, log entry 3): for each outstanding request, however long the oldest
has waited, there are values of the choice and of the patience that give its requester the next turn. It speaks of one
turn, not of an order of turns. -/
def Obligations.AnyRequesterMayHaveTheTurn : Prop :=
  ∀ (q : Request) (qs : List Request) (p : Request) (waited : Nat), p ∈ q :: qs →
    ∃ k patience, dueRequester k patience waited q qs = p.requester

/-- 70_reset_and_hazards.md section 1: reset loses every outstanding request with no response; a request issued while it
is asserted is not accepted; nothing is ever answered under reset; and after it a request issued again is answered as
before, from the same tables. That asserting reset also ends the delivery of a response still on the ports is deduced
(log entry 15). -/
def Obligations.ResetLosesWhatIsOutstanding : Prop :=
  ∀ (s : State) (q : Request),
    s.assertReset.outstanding = [] ∧ s.assertReset.response = none ∧ s.assertReset.issue q = s.assertReset ∧
    (∀ n, answered n s.assertReset = []) ∧
    (∃ t : State, step (s.assertReset.releaseReset.issue q) = .next t ∧ t.onPorts = q ∧
      t.response = some (decodeAndRun q.cmd q.opnd) ∧ t.outstanding = [])

/-- 70_reset_and_hazards.md R231: nothing is outstanding after reset and no response is delivered, reset is released,
and the first request is served as any other. -/
def Obligations.StateAfterReset : Prop :=
  State.reset.outstanding = [] ∧ State.reset.response = none ∧ State.reset.statusPort = none ∧
  State.reset.resetAsserted = false ∧
  ∀ q : Request, ∃ t : State, step (State.reset.issue q) = .next t ∧ t.onPorts = q ∧
    t.response = some (decodeAndRun q.cmd q.opnd)

/-! ## The forward permutations -/

/-- 40_permutations.md R101. -/
def Obligations.IpIsTheInitialPermutation : Prop :=
  encode .ip = 0x0001 ∧ decode 0x0001 = .ok .ip ∧
  (∀ s : State, ∃ r, exec .ip s = .next (s.deliver (.ok r)) ∧ Selects Tables.ip 64 s.opnd r) ∧
  Answers .ip 0 (.ok 0) ∧ Answers .ip 0xFFFFFFFFFFFFFFFF (.ok 0xFFFFFFFFFFFFFFFF) ∧
  Answers .ip 0x0000000000000001 (.ok 0x0000008000000000) ∧
  Answers .ip 0x8000000000000000 (.ok 0x0000000001000000) ∧
  Answers .ip 0x0123456789ABCDEF (.ok 0xCC00CCFFF0AAF0AA)

/-- 40_permutations.md R102. -/
def Obligations.FpIsTheFinalPermutation : Prop :=
  encode .fp = 0x0002 ∧ decode 0x0002 = .ok .fp ∧
  (∀ s : State, ∃ r, exec .fp s = .next (s.deliver (.ok r)) ∧ Selects Tables.fp 64 s.opnd r) ∧
  Answers .fp 0 (.ok 0) ∧ Answers .fp 0xFFFFFFFFFFFFFFFF (.ok 0xFFFFFFFFFFFFFFFF) ∧
  Answers .fp 0x0000000000000001 (.ok 0x0200000000000000) ∧
  Answers .fp 0x8000000000000000 (.ok 0x0000000000000040) ∧
  Answers .fp 0xCC00CCFFF0AAF0AA (.ok 0x0123456789ABCDEF)

/-- 40_permutations.md R103. -/
def Obligations.EExpands : Prop :=
  encode .e = 0x0003 ∧ decode 0x0003 = .ok .e ∧
  (∀ s : State, s.opnd.toNat < 2 ^ 32 →
    ∃ r, exec .e s = .next (s.deliver (.ok r)) ∧ Selects Tables.e 32 s.opnd r) ∧
  (∀ s : State, 2 ^ 32 ≤ s.opnd.toNat → exec .e s = .next (s.deliver (.err .invalidWidthRange))) ∧
  Answers .e 0 (.ok 0) ∧ Answers .e 0xFFFFFFFF (.ok 0xFFFFFFFFFFFF) ∧
  Answers .e 0x00000001 (.ok 0x800000000002) ∧ Answers .e 0x80000000 (.ok 0x400000000001) ∧
  Answers .e 0x55555555 (.ok 0xAAAAAAAAAAAA) ∧ Answers .e 0x100000000 (.err .invalidWidthRange) ∧
  Answers .e 0xF0AAF0AA (.ok 0x7A15557A1555)

/-- 40_permutations.md R104. -/
def Obligations.PIsTheStraightPermutation : Prop :=
  encode .p = 0x0004 ∧ decode 0x0004 = .ok .p ∧
  (∀ s : State, s.opnd.toNat < 2 ^ 32 →
    ∃ r, exec .p s = .next (s.deliver (.ok r)) ∧ Selects Tables.p 32 s.opnd r) ∧
  (∀ s : State, 2 ^ 32 ≤ s.opnd.toNat → exec .p s = .next (s.deliver (.err .invalidWidthRange))) ∧
  Answers .p 0 (.ok 0) ∧ Answers .p 0xFFFFFFFF (.ok 0xFFFFFFFF) ∧
  Answers .p 0x00000001 (.ok 0x00000800) ∧ Answers .p 0x80000000 (.ok 0x00800000) ∧
  Answers .p 0x100000000 (.err .invalidWidthRange) ∧ Answers .p 0x5C82B597 (.ok 0x234AA9BB)

/-- 40_permutations.md R105. -/
def Obligations.Pc1DropsTheParityBits : Prop :=
  encode .pc1 = 0x0005 ∧ decode 0x0005 = .ok .pc1 ∧
  (∀ s : State, ∃ r, exec .pc1 s = .next (s.deliver (.ok r)) ∧ Selects Tables.pc1 64 s.opnd r ∧
    r.toNat < 2 ^ 56) ∧
  (∀ k, 1 ≤ k → k ≤ 8 → 8 * k ∉ Tables.pc1) ∧
  Answers .pc1 0x0101010101010101 (.ok 0) ∧ Answers .pc1 0xFEFEFEFEFEFEFEFE (.ok 0xFFFFFFFFFFFFFF) ∧
  Answers .pc1 0x0000000000000001 (.ok 0) ∧ Answers .pc1 0x8000000000000000 (.ok 0x0001000000000000) ∧
  Answers .pc1 0x133457799BBCDFF1 (.ok 0xF0CCAAF556678F)

/-- 40_permutations.md R106. -/
def Obligations.Pc2SelectsTheRoundKey : Prop :=
  encode .pc2 = 0x0006 ∧ decode 0x0006 = .ok .pc2 ∧
  (∀ s : State, s.opnd.toNat < 2 ^ 56 →
    ∃ r, exec .pc2 s = .next (s.deliver (.ok r)) ∧ Selects Tables.pc2 56 s.opnd r) ∧
  (∀ s : State, 2 ^ 56 ≤ s.opnd.toNat → exec .pc2 s = .next (s.deliver (.err .invalidWidthRange))) ∧
  (∀ p ∈ [9, 18, 22, 25, 35, 38, 43, 54], p ∉ Tables.pc2) ∧
  Answers .pc2 0x804480242004 (.ok 0) ∧ Answers .pc2 0xFFFFFFFFFFFFFF (.ok 0xFFFFFFFFFFFF) ∧
  Answers .pc2 0x00000000000001 (.ok 0x000000000100) ∧ Answers .pc2 0x80000000000000 (.ok 0x080000000000) ∧
  Answers .pc2 0x100000000000000 (.err .invalidWidthRange) ∧ Answers .pc2 0xE19955FAACCF1E (.ok 0x1B02EFFC7072)

/-- 40_permutations.md R107: IP and FP undo each other on all 64-bit words. -/
def Obligations.IpAndFpAreInverse : Prop :=
  ∀ x : Word, (∃ y, Answers .ip x (.ok y) ∧ Answers .fp y (.ok x)) ∧
    ∃ y, Answers .fp x (.ok y) ∧ Answers .ip y (.ok x)

/-! ## The inverse permutations and parity -/

/-- 41_inverses.md R131: IPINV selects by FP, which is scattering by IP, and answers what FP answers. -/
def Obligations.IpinvIsFp : Prop :=
  encode .ipinv = 0x0011 ∧ decode 0x0011 = .ok .ipinv ∧
  (∀ s : State, ∃ r, exec .ipinv s = .next (s.deliver (.ok r)) ∧ Selects Tables.fp 64 s.opnd r ∧
    Scatters Tables.ip 64 s.opnd r ∧ Answers .fp s.opnd (.ok r)) ∧
  Answers .ipinv 0xCC00CCFFF0AAF0AA (.ok 0x0123456789ABCDEF)

/-- 41_inverses.md R132: FPINV selects by IP, which is scattering by FP, and answers what IP answers. -/
def Obligations.FpinvIsIp : Prop :=
  encode .fpinv = 0x0012 ∧ decode 0x0012 = .ok .fpinv ∧
  (∀ s : State, ∃ r, exec .fpinv s = .next (s.deliver (.ok r)) ∧ Selects Tables.ip 64 s.opnd r ∧
    Scatters Tables.fp 64 s.opnd r ∧ Answers .ip s.opnd (.ok r)) ∧
  Answers .fpinv 0x0123456789ABCDEF (.ok 0xCC00CCFFF0AAF0AA)

/-- 41_inverses.md R133, with the law of P it states. -/
def Obligations.PinvUndoesP : Prop :=
  encode .pinv = 0x0014 ∧ decode 0x0014 = .ok .pinv ∧
  (∀ s : State, s.opnd.toNat < 2 ^ 32 →
    ∃ r, exec .pinv s = .next (s.deliver (.ok r)) ∧ Scatters Tables.p 32 s.opnd r) ∧
  (∀ s : State, 2 ^ 32 ≤ s.opnd.toNat → exec .pinv s = .next (s.deliver (.err .invalidWidthRange))) ∧
  Answers .pinv 0 (.ok 0) ∧ Answers .pinv 0xFFFFFFFF (.ok 0xFFFFFFFF) ∧
  Answers .pinv 0x00000001 (.ok 0x00000080) ∧ Answers .pinv 0x80000000 (.ok 0x00010000) ∧
  (∀ x : Word, x.toNat < 2 ^ 32 → (∃ y, Answers .p x (.ok y) ∧ Answers .pinv y (.ok x)) ∧
    ∃ y, Answers .pinv x (.ok y) ∧ Answers .p y (.ok x)) ∧
  Answers .pinv 0x234AA9BB (.ok 0x5C82B597)

/-- 41_inverses.md R135: the width is checked first, then the copies; where they agree, every output position of E holds
the bit of its input position in the result. -/
def Obligations.EinvReadsTheCopies : Prop :=
  encode .einv = 0x0013 ∧ decode 0x0013 = .ok .einv ∧
  (∀ s : State, 2 ^ 48 ≤ s.opnd.toNat → exec .einv s = .next (s.deliver (.err .invalidWidthRange))) ∧
  (∀ s : State, s.opnd.toNat < 2 ^ 48 → CopiesConflict s.opnd →
    exec .einv s = .next (s.deliver (.err .ambiguousInput))) ∧
  (∀ s : State, s.opnd.toNat < 2 ^ 48 → ¬ CopiesConflict s.opnd →
    ∃ r, exec .einv s = .next (s.deliver (.ok r)) ∧ r.toNat < 2 ^ 32 ∧
      (∀ i, 1 ≤ i → i ≤ 48 → pos r 32 (Tables.entry Tables.e i) = pos s.opnd 48 i) ∧ Answers .e r (.ok s.opnd)) ∧
  (∀ x : Word, x.toNat < 2 ^ 32 → ∃ y, Answers .e x (.ok y) ∧ Answers .einv y (.ok x)) ∧
  Answers .einv 0 (.ok 0) ∧ Answers .einv 0xFFFFFFFFFFFF (.ok 0xFFFFFFFF) ∧
  Answers .einv 0x000000000001 (.err .ambiguousInput) ∧ Answers .einv 0x800000000001 (.err .ambiguousInput) ∧
  Answers .einv 0xAAAAAAAAAAAA (.ok 0x55555555) ∧ Answers .einv 0x1000000000000 (.err .invalidWidthRange) ∧
  Answers .einv 0x7A15557A1555 (.ok 0xF0AAF0AA) ∧ Answers .einv 0x6117BA866527 (.err .ambiguousInput)

/-- 41_inverses.md R136: every byte's parity bit is recomputed, the old one ignored, the data bits kept; a word whose
bytes are all odd comes back unchanged. -/
def Obligations.ParityMakesEveryByteOdd : Prop :=
  encode .parity = 0x0017 ∧ decode 0x0017 = .ok .parity ∧
  (∀ s : State, ∃ r, exec .parity s = .next (s.deliver (.ok r)) ∧ OddParityOf s.opnd r) ∧
  (∀ x : Word, (∀ k, 1 ≤ k → k ≤ 8 → popcount (byteOf x k) % 2 = 1) → Answers .parity x (.ok x)) ∧
  Answers .parity 0 (.ok 0x0101010101010101) ∧
  Answers .parity 0xFFFFFFFFFFFFFFFF (.ok 0xFEFEFEFEFEFEFEFE) ∧
  Answers .parity 0x8000000000000001 (.ok 0x8001010101010101) ∧
  Answers .parity 0x133457799BBCDFF1 (.ok 0x133457799BBCDFF1) ∧
  Answers .parity 0x0123456789ABCDEF (.ok 0x0123456789ABCDEF)

/-- 41_inverses.md R137: the 56 bits go back to their key positions, and the parity of the whole key is recomputed. -/
def Obligations.Pc1invRestoresAnOddKey : Prop :=
  encode .pc1inv = 0x0015 ∧ decode 0x0015 = .ok .pc1inv ∧
  (∀ s : State, s.opnd.toNat < 2 ^ 56 →
    ∃ t r, exec .pc1inv s = .next (s.deliver (.ok r)) ∧ Scatters Tables.pc1 64 s.opnd t ∧ OddParityOf t r) ∧
  (∀ s : State, 2 ^ 56 ≤ s.opnd.toNat → exec .pc1inv s = .next (s.deliver (.err .invalidWidthRange))) ∧
  Answers .pc1inv 0 (.ok 0x0101010101010101) ∧
  Answers .pc1inv 0xFFFFFFFFFFFFFF (.ok 0xFEFEFEFEFEFEFEFE) ∧
  Answers .pc1inv 0x00000000000001 (.ok 0x1001010101010101) ∧
  Answers .pc1inv 0x100000000000000 (.err .invalidWidthRange) ∧
  Answers .pc1inv 0xF0CCAAF556678F (.ok 0x133457799BBCDFF1)

/-- 41_inverses.md R143: the 48 bits go back to their places, and the eight positions PC2 never reads are 0. -/
def Obligations.Pc2invFillsWithZero : Prop :=
  encode .pc2inv = 0x0016 ∧ decode 0x0016 = .ok .pc2inv ∧
  (∀ s : State, s.opnd.toNat < 2 ^ 48 →
    ∃ r, exec .pc2inv s = .next (s.deliver (.ok r)) ∧ Scatters Tables.pc2 56 s.opnd r ∧
      ∀ p ∈ [9, 18, 22, 25, 35, 38, 43, 54], pos r 56 p = 0) ∧
  (∀ s : State, 2 ^ 48 ≤ s.opnd.toNat → exec .pc2inv s = .next (s.deliver (.err .invalidWidthRange))) ∧
  Answers .pc2inv 0 (.ok 0) ∧ Answers .pc2inv 0xFFFFFFFFFFFF (.ok 0xFF7FBB7FDBDFFB) ∧
  Answers .pc2inv 0x000000000001 (.ok 0x00000001000000) ∧
  Answers .pc2inv 0x1000000000000 (.err .invalidWidthRange) ∧
  Answers .pc2inv 0x1B02EFFC7072 (.ok (0xE19955FAACCF1E &&& ~~~0x804480242004)) ∧
  Answers .pc2inv 0x1B02EFFC7072 (.ok 0xE119117A88CF1A)

/-- 41_inverses.md R138: IPINV and FPINV are exact inverses of IP and FP, on both sides. -/
def Obligations.IpinvAndFpinvLaws : Prop :=
  ∀ x : Word, (∃ y, Answers .ip x (.ok y) ∧ Answers .ipinv y (.ok x)) ∧
    (∃ y, Answers .ipinv x (.ok y) ∧ Answers .ip y (.ok x)) ∧
    (∃ y, Answers .fp x (.ok y) ∧ Answers .fpinv y (.ok x)) ∧
    ∃ y, Answers .fpinv x (.ok y) ∧ Answers .fp y (.ok x)

/-- 41_inverses.md R140: EINV succeeds exactly on the words E produces, and returns the word E made them of. -/
def Obligations.EinvSucceedsOnTheImageOfE : Prop :=
  ∀ v x : Word, Answers .einv v (.ok x) ↔ Answers .e x (.ok v)

/-- 41_inverses.md R141: the parity recomputation is idempotent, and every byte of its result is odd. -/
def Obligations.ParityIsIdempotent : Prop :=
  ∀ x : Word, ∃ y, Answers .parity x (.ok y) ∧ Answers .parity y (.ok y) ∧
    ∀ k, 1 ≤ k → k ≤ 8 → popcount (slice y (71 - 8 * k) (64 - 8 * k)) % 2 = 1

/-- 41_inverses.md R142: PC1 undoes PC1INV; PC1INV after PC1 is PARITY, so it gives the key back exactly when every byte
of the key is odd. -/
def Obligations.Pc1invLaws : Prop :=
  (∀ v : Word, v.toNat < 2 ^ 56 → ∃ k, Answers .pc1inv v (.ok k) ∧ Answers .pc1 k (.ok v)) ∧
  (∀ k : Word, ∃ v y, Answers .pc1 k (.ok v) ∧ Answers .pc1inv v (.ok y) ∧ Answers .parity k (.ok y) ∧
    (y = k ↔ ∀ j, 1 ≤ j → j ≤ 8 → popcount (byteOf k j) % 2 = 1))

/-- 41_inverses.md R144: PC2 undoes PC2INV; PC2INV after PC2 keeps all but the eight DROP2 positions, which are 0. -/
def Obligations.Pc2invLaws : Prop :=
  (∀ v : Word, v.toNat < 2 ^ 48 → ∃ c, Answers .pc2inv v (.ok c) ∧ Answers .pc2 c (.ok v)) ∧
  (∀ c : Word, c.toNat < 2 ^ 56 → ∃ v, Answers .pc2 c (.ok v) ∧
    Answers .pc2inv v (.ok (c &&& ~~~0x804480242004)))

/-! ## Rotation and the schedule -/

/-- 42_rotate.md R160: within each half the bit at position p+1 moves to p, and the first position's bit to the last. -/
def Obligations.LsRotatesEachHalfLeft : Prop :=
  encode .ls = 0x0020 ∧ decode 0x0020 = .ok .ls ∧
  (∀ s : State, s.opnd.toNat < 2 ^ 56 →
    ∃ r, exec .ls s = .next (s.deliver (.ok r)) ∧ r.toNat < 2 ^ 56 ∧
      (∀ p, (1 ≤ p ∧ p ≤ 27) ∨ (29 ≤ p ∧ p ≤ 55) → pos r 56 p = pos s.opnd 56 (p + 1)) ∧
      pos r 56 28 = pos s.opnd 56 1 ∧ pos r 56 56 = pos s.opnd 56 29) ∧
  (∀ s : State, 2 ^ 56 ≤ s.opnd.toNat → exec .ls s = .next (s.deliver (.err .invalidWidthRange))) ∧
  Answers .ls 0 (.ok 0) ∧ Answers .ls 0xFFFFFFFFFFFFFF (.ok 0xFFFFFFFFFFFFFF) ∧
  Answers .ls 0x00000000000001 (.ok 0x00000000000002) ∧ Answers .ls 0x80000000000000 (.ok 0x00000010000000) ∧
  Answers .ls 0x00000008000000 (.ok 0x00000000000001) ∧ Answers .ls 0x100000000000000 (.err .invalidWidthRange) ∧
  Answers .ls 0xF0CCAAF556678F (.ok 0xE19955FAACCF1E)

/-- 42_rotate.md R161: within each half the bit at position p moves to p+1, and the last position's bit to the first. -/
def Obligations.RsRotatesEachHalfRight : Prop :=
  encode .rs = 0x0021 ∧ decode 0x0021 = .ok .rs ∧
  (∀ s : State, s.opnd.toNat < 2 ^ 56 →
    ∃ r, exec .rs s = .next (s.deliver (.ok r)) ∧ r.toNat < 2 ^ 56 ∧
      (∀ p, (1 ≤ p ∧ p ≤ 27) ∨ (29 ≤ p ∧ p ≤ 55) → pos r 56 (p + 1) = pos s.opnd 56 p) ∧
      pos r 56 1 = pos s.opnd 56 28 ∧ pos r 56 29 = pos s.opnd 56 56) ∧
  (∀ s : State, 2 ^ 56 ≤ s.opnd.toNat → exec .rs s = .next (s.deliver (.err .invalidWidthRange))) ∧
  Answers .rs 0 (.ok 0) ∧ Answers .rs 0xFFFFFFFFFFFFFF (.ok 0xFFFFFFFFFFFFFF) ∧
  Answers .rs 0x00000000000001 (.ok 0x00000008000000) ∧ Answers .rs 0x00000010000000 (.ok 0x80000000000000) ∧
  Answers .rs 0x80000000000000 (.ok 0x40000000000000) ∧ Answers .rs 0x100000000000000 (.err .invalidWidthRange) ∧
  Answers .rs 0xE19955FAACCF1E (.ok 0xF0CCAAF556678F)

/-- 42_rotate.md R162: the flag of each round; a round number out of 1..16, or a non-zero operand, is an error. -/
def Obligations.RschedReadsTheSchedule : Prop :=
  (∀ r, r < 256 → encode (.rsched r) = BitVec.ofNat 16 (r * 256 + 0x22) ∧
    decode (BitVec.ofNat 16 (r * 256 + 0x22)) = .ok (.rsched r)) ∧
  encode (.rsched 3) = 0x0322 ∧
  (∀ (s : State) (r : Nat), s.opnd = 0 → r ∈ [1, 2, 9, 16] →
    exec (.rsched r) s = .next (s.deliver (.ok 0))) ∧
  (∀ (s : State) (r : Nat), s.opnd = 0 → 1 ≤ r → r ≤ 16 → r ∉ [1, 2, 9, 16] →
    exec (.rsched r) s = .next (s.deliver (.ok 1))) ∧
  (∀ (s : State) (r : Nat), 1 ≤ r → r ≤ 16 → s.opnd = 0 →
    exec (.rsched r) s = .next (s.deliver (.ok (BitVec.ofNat 64 (Tables.entry Tables.shift r))))) ∧
  (∀ (s : State) (r : Nat), ¬ (1 ≤ r ∧ r ≤ 16) ∨ s.opnd ≠ 0 →
    exec (.rsched r) s = .next (s.deliver (.err .invalidWidthRange))) ∧
  Answers (.rsched 0) 0 (.err .invalidWidthRange) ∧ Answers (.rsched 17) 0 (.err .invalidWidthRange) ∧
  Answers (.rsched 3) 0 (.ok 1)

/-- 42_rotate.md R163: LS and RS undo each other, and neither moves a bit between the halves. -/
def Obligations.LsAndRsAreInverse : Prop :=
  (∀ v : Word, v.toNat < 2 ^ 56 → (∃ u, Answers .ls v (.ok u) ∧ Answers .rs u (.ok v)) ∧
    ∃ u, Answers .rs v (.ok u) ∧ Answers .ls u (.ok v)) ∧
  (∀ i ∈ [Instr.ls, .rs], ∀ v v' u u' : Word, Answers i v (.ok u) → Answers i v' (.ok u') →
    (halfC v = halfC v' → halfC u = halfC u') ∧ (halfD v = halfD v' → halfD u = halfD u'))

/-- 42_rotate.md R164: 28 applications of LS, and of RS, are the identity, and so is the walk through the whole
schedule; so round key 16 of a key is PC2 of its C0D0. -/
def Obligations.RotationCycleIdentity : Prop :=
  (∀ v : Word, v.toNat < 2 ^ 56 → Repeats .ls 28 v v ∧ Repeats .rs 28 v v ∧ ScheduleWalk 1 16 v v) ∧
  Tables.cum 16 = 28 ∧
  (∀ k : Word, ∃ c d, Answers .pc1 k (.ok c) ∧ ScheduleWalk 1 16 c d ∧
    ∃ y, Answers .pc2 d (.ok y) ∧ Answers .pc2 c (.ok y))

/-- 42_rotate.md R165: `cum r` and the distance back, round by round; the walk through rounds 1 to r is `cum r`
applications of LS, which `28 - cum r` more of them, or `cum r` of RS, take back. -/
def Obligations.CumulativeRotation : Prop :=
  (List.range' 1 16).map Tables.cum = [1, 2, 4, 6, 8, 10, 12, 14, 15, 17, 19, 21, 23, 25, 27, 28] ∧
  (∀ (r : Nat) (v : Word), 1 ≤ r → r ≤ 16 → v.toNat < 2 ^ 56 →
    ∃ u, ScheduleWalk 1 r v u ∧ Repeats .ls (Tables.cum r) v u ∧ Repeats .ls (28 - Tables.cum r) u v ∧
      Repeats .rs (Tables.cum r) u v ∧ ScheduleWalk (r + 1) (16 - r) u v)

/-- From 30_encoding.md section 5: LS2 and RS2 stand for two requests; on a block that serves nobody else, which is the
model's setting of a program (log entry 12), the pseudo-instruction's result is that of the second, and where the first
fails, by width, the second is not issued: one response was delivered in all, by the model's own count (log entry 5). -/
def Obligations.PseudoInstructionsIssueTwoRequests : Prop :=
  (∀ (k : Nat) (o : Operand), expandFrom k [.ls2 o] = [.request .ls o, .request .ls (.result k)] ∧
    expandFrom k [.rs2 o] = [.request .rs o, .request .rs (.result k)]) ∧
  ∀ (h : Nat) (s : State) (v : Word), s.resetAsserted = false → s.outstanding = [] →
    ∀ x ∈ [(Line.ls2 (.lit v), Instr.ls), (Line.rs2 (.lit v), Instr.rs)],
      (v.toNat < 2 ^ 56 → ∃ (u w : Word) (t : State), Answers x.2 v (.ok u) ∧ Answers x.2 u (.ok w) ∧
        runProgram h [x.1] s = (.finished, [.ok u, .ok w], t) ∧ t.outstanding = []) ∧
      (2 ^ 56 ≤ v.toNat → ∃ t : State,
        runProgram h [x.1] s = (.failedOperand, [.err .invalidWidthRange], t) ∧ t.outstanding = [] ∧
          t.draw = s.draw + 1)

/-! ## The S-boxes -/

/-- 43_sbox.md R180, R181: row from the outer bits, column from the inner four; the index is checked, then the width. -/
def Obligations.SboxLooksUpRowAndColumn : Prop :=
  (∀ n, n < 256 → encode (.sbox n) = BitVec.ofNat 16 (n * 256 + 0x30) ∧
    decode (BitVec.ofNat 16 (n * 256 + 0x30)) = .ok (.sbox n)) ∧
  encode (.sbox 5) = 0x0530 ∧
  (∀ (s : State) (n : Nat), 1 ≤ n → n ≤ 8 → s.opnd.toNat < 64 →
    exec (.sbox n) s = .next (s.deliver (.ok (BitVec.ofNat 64
      (((Tables.sboxes.getD (n - 1) []).getD (2 * (s.opnd.toNat / 32) + s.opnd.toNat % 2) []).getD
        (s.opnd.toNat / 2 % 16) 0))))) ∧
  (∀ (s : State) (n : Nat), ¬ (1 ≤ n ∧ n ≤ 8) ∨ 64 ≤ s.opnd.toNat →
    exec (.sbox n) s = .next (s.deliver (.err .invalidWidthRange))) ∧
  (∀ x ∈ [(1, [14, 0, 4, 15, 5, 13]), (2, [15, 3, 0, 13, 9, 9]), (3, [10, 13, 13, 1, 11, 12]),
      (4, [7, 13, 10, 3, 10, 14]), (5, [2, 14, 4, 11, 9, 3]), (6, [12, 10, 9, 4, 11, 13]),
      (7, [4, 13, 1, 6, 15, 12]), (8, [13, 1, 7, 2, 14, 11])],
    ∀ y ∈ [0x00, 0x01, 0x20, 0x21, 0x1B, 0x3F].zip x.2,
      Answers (.sbox x.1) (BitVec.ofNat 64 y.1) (.ok (BitVec.ofNat 64 y.2))) ∧
  Answers (.sbox 0) 0 (.err .invalidWidthRange) ∧ Answers (.sbox 9) 0 (.err .invalidWidthRange) ∧
  Answers (.sbox 255) 0 (.err .invalidWidthRange) ∧ Answers (.sbox 1) 0x40 (.err .invalidWidthRange)

/-- 43_sbox.md R182: eight lookups side by side, group g at positions 6g-5..6g, output g at positions 4g-3..4g. -/
def Obligations.SboxesLooksUpEveryGroup : Prop :=
  encode .sboxes = 0x0031 ∧ decode 0x0031 = .ok .sboxes ∧
  (∀ s : State, s.opnd.toNat < 2 ^ 48 →
    ∃ y, exec .sboxes s = .next (s.deliver (.ok y)) ∧ y.toNat < 2 ^ 32 ∧
      ∀ g, 1 ≤ g → g ≤ 8 → slice y (35 - 4 * g) (32 - 4 * g) = BitVec.ofNat 64
        (((Tables.sboxes.getD (g - 1) []).getD
          (2 * (s.opnd.toNat / 2 ^ (48 - 6 * g) % 64 / 32) + s.opnd.toNat / 2 ^ (48 - 6 * g) % 2) []).getD
          (s.opnd.toNat / 2 ^ (48 - 6 * g) / 2 % 16) 0)) ∧
  (∀ s : State, 2 ^ 48 ≤ s.opnd.toNat → exec .sboxes s = .next (s.deliver (.err .invalidWidthRange))) ∧
  Answers .sboxes 0 (.ok 0xEFA72C4D) ∧ Answers .sboxes 0xFFFFFFFFFFFF (.ok 0xD9CE3DCB) ∧
  Answers .sboxes 0x000000000001 (.ok 0xEFA72C41) ∧ Answers .sboxes 0x800000000000 (.ok 0x4FA72C4D) ∧
  Answers .sboxes 0x1000000000000 (.err .invalidWidthRange) ∧ Answers .sboxes 0x6117BA866527 (.ok 0x5C82B597)

/-- 43_sbox.md R183: nibble g of SBOXES is what SBOX g answers to group g. -/
def Obligations.SboxesIsEightSboxRequests : Prop :=
  ∀ v : Word, v.toNat < 2 ^ 48 → ∃ y, Answers .sboxes v (.ok y) ∧
    ∀ g, 1 ≤ g → g ≤ 8 →
      Answers (.sbox g) (slice v (53 - 6 * g) (48 - 6 * g)) (.ok (slice y (35 - 4 * g) (32 - 4 * g)))

/-! ## Tables and words -/

/-- 10_state.md R29 to R37: FP is the inverse of IP entry by entry; E names 16 positions twice and the other 16 once; P is
a bijection; PC1 and PC2 name 56 and 48 distinct positions, PC2's first half in C and its second in D; every S-box row
is a permutation of 0 to 15; the schedule's rotations sum to 28. -/
def Obligations.TableFacts : Prop :=
  (∀ i, 1 ≤ i → i ≤ 64 → Tables.entry Tables.fp (Tables.entry Tables.ip i) = i ∧
    Tables.entry Tables.ip (Tables.entry Tables.fp i) = i) ∧
  (∀ j, 1 ≤ j → j ≤ 32 →
    Tables.e.count j = if j ∈ [1, 4, 5, 8, 9, 12, 13, 16, 17, 20, 21, 24, 25, 28, 29, 32] then 2 else 1) ∧
  Tables.p.Perm (List.range' 1 32) ∧ Tables.pc1.Nodup ∧ Tables.pc1.length = 56 ∧
  Tables.pc2.Nodup ∧ Tables.pc2.length = 48 ∧
  (∀ i, 1 ≤ i → i ≤ 24 → Tables.entry Tables.pc2 i ≤ 28) ∧
  (∀ i, 25 ≤ i → i ≤ 48 → 29 ≤ Tables.entry Tables.pc2 i) ∧
  (∀ S ∈ Tables.sboxes, S.length = 4 ∧ ∀ row ∈ S, row.Perm (List.range 16)) ∧ Tables.sboxes.length = 8 ∧
  Tables.cum 16 = 28

/-- 41_inverses.md R134: the output positions of each input position of E, as the table lists them. -/
def Obligations.DuplicatedPositionsOfE : Prop :=
  (∀ x ∈ [(32, 1, 47), (1, 2, 48), (4, 5, 7), (5, 6, 8), (8, 11, 13), (9, 12, 14), (12, 17, 19), (13, 18, 20),
      (16, 23, 25), (17, 24, 26), (20, 29, 31), (21, 30, 32), (24, 35, 37), (25, 36, 38), (28, 41, 43), (29, 42, 44)],
    outs x.1 = [x.2.1, x.2.2]) ∧
  (∀ x ∈ [(2, 3), (3, 4), (6, 9), (7, 10), (10, 15), (11, 16), (14, 21), (15, 22), (18, 27), (19, 28), (22, 33),
      (23, 34), (26, 39), (27, 40), (30, 45), (31, 46)],
    outs x.1 = [x.2])

/-- 20_memory.md R51: a host sends byte 1, positions 1 to 8, first, and the eight bytes spell the word. -/
def Obligations.SerialisationIsBigEndian : Prop :=
  ∀ v : Word, (serialise v).length = 8 ∧ (serialise v)[0]? = some (v.extractLsb' 56 8) ∧
    (serialise v)[7]? = some (v.extractLsb' 0 8) ∧ deserialise (serialise v) = v
end

