-- ==== Sys2Proof/Laws/Bits.lean ====
section
/-! SUPPORT. Bits, positions, slices and the two directions of a table, bit by bit: one lemma per function of
Machine/Bits.lean that says which bit of the operand each bit of the result is. -/

namespace Sys2Proof.Machine

theorem bitAt_getLsbD (v : Word) (k j : Nat) : (bitAt v k).getLsbD j = (decide (j = 0) && v.getLsbD k) := by
  have h1 : (1 : Word).getLsbD j = decide (j = 0) := by
    by_cases h : j = 0 <;> simp [h, BitVec.getLsbD_one]
  simp only [bitAt, BitVec.getLsbD_and, BitVec.getLsbD_ushiftRight, h1]
  by_cases h : j = 0 <;> simp [h]

/-- A bit as a word is 1 or 0. -/
theorem bitAt_eq (v : Word) (k : Nat) : bitAt v k = if v.getLsbD k then 1 else 0 := by
  apply BitVec.eq_of_getLsbD_eq
  intro j hj
  rw [bitAt_getLsbD]
  cases v.getLsbD k <;> by_cases h : j = 0 <;> simp [h]

/-- Two positions hold the same bit exactly when the integer bits agree (R10). -/
theorem pos_eq_pos_iff (v u : Word) (w x p q : Nat) :
    pos v w p = pos u x q ↔ v.getLsbD (w - p) = u.getLsbD (x - q) := by
  simp only [pos, bitAt_eq]
  cases v.getLsbD (w - p) <;> cases u.getLsbD (x - q) <;> simp

theorem pos_eq_zero_iff (v : Word) (w p : Nat) : pos v w p = 0 ↔ v.getLsbD (w - p) = false := by
  simp only [pos, bitAt_eq]
  cases v.getLsbD (w - p) <;> simp

theorem entry_cons_one (t : Nat) (ts : List Nat) : Tables.entry (t :: ts) 1 = t := rfl

theorem entry_cons_succ (t : Nat) (ts : List Nat) (i : Nat) (h : 1 ≤ i) :
    Tables.entry (t :: ts) (i + 1) = Tables.entry ts i := by
  obtain ⟨j, rfl⟩ : ∃ j, i = j + 1 := ⟨i - 1, by omega⟩
  simp [Tables.entry]

theorem entry_mem (T : List Nat) (i : Nat) (h1 : 1 ≤ i) (h2 : i ≤ T.length) : Tables.entry T i ∈ T := by
  have : i - 1 < T.length := by omega
  simp [Tables.entry, List.getD, this]

/-- R12: bit `k` of `permute` is the input bit at the position the table gives for output position `len - k`. -/
theorem permute_getLsbD (T : List Nat) (w : Nat) (v : Word) (k : Nat) (hT : T.length ≤ 64) :
    (permute T w v).getLsbD k =
      (decide (k < T.length) && v.getLsbD (w - Tables.entry T (T.length - k))) := by
  induction T generalizing k with
  | nil => simp [permute]
  | cons t ts ih =>
    simp only [List.length_cons] at hT
    simp only [permute, BitVec.getLsbD_or, BitVec.getLsbD_shiftLeft, List.length_cons, pos, bitAt_getLsbD]
    rw [ih k (by omega)]
    rcases Nat.lt_trichotomy k ts.length with h | h | h
    · have : ts.length + 1 - k = (ts.length - k) + 1 := by omega
      rw [this, entry_cons_succ _ _ _ (by omega)]
      simp [h, show k < ts.length + 1 by omega]
    · subst h
      simp [entry_cons_one, show ts.length < 64 by omega]
    · simp [show ¬ k < ts.length by omega, show ¬ k < ts.length + 1 by omega, show k - ts.length ≠ 0 by omega]

/-- R12: bit `k` of `scatter` is set exactly when some set input position goes there. -/
theorem scatter_getLsbD (T : List Nat) (w : Nat) (v : Word) (k : Nat) (hk : k < 64) :
    (scatter T w v).getLsbD k = true ↔
      ∃ i, 1 ≤ i ∧ i ≤ T.length ∧ w - Tables.entry T i = k ∧ v.getLsbD (T.length - i) = true := by
  induction T with
  | nil => simp [scatter]
  | cons t ts ih =>
    simp only [scatter, BitVec.getLsbD_or, BitVec.getLsbD_shiftLeft, bitAt_getLsbD, Bool.or_eq_true, ih,
      List.length_cons]
    constructor
    · rintro (h | ⟨i, h1, h2, h3, h4⟩)
      · simp only [hk, decide_true, Bool.true_and, Bool.and_eq_true, Bool.not_eq_true', decide_eq_false_iff_not,
          decide_eq_true_eq] at h
        exact ⟨1, by omega, by omega, by rw [entry_cons_one]; omega, by simpa using h.2.2⟩
      · exact ⟨i + 1, by omega, by omega, by rw [entry_cons_succ _ _ _ h1]; exact h3,
          by rw [show ts.length + 1 - (i + 1) = ts.length - i by omega]; exact h4⟩
    · rintro ⟨i, h1, h2, h3, h4⟩
      rcases Nat.eq_or_lt_of_le h1 with h | h
      · subst h
        rw [entry_cons_one] at h3
        left
        simp only [Nat.add_sub_cancel] at h4
        simp [hk, h4, h3]
      · obtain ⟨j, rfl⟩ : ∃ j, i = j + 1 := ⟨i - 1, by omega⟩
        right
        refine ⟨j, by omega, by omega, ?_, ?_⟩
        · rw [entry_cons_succ _ _ _ (by omega)] at h3; exact h3
        · rw [show ts.length + 1 - (j + 1) = ts.length - j by omega] at h4; exact h4

/-- Bit `k` of a slice (R11). -/
theorem slice_getLsbD (v : Word) (hi lo k : Nat) (hw : hi - lo + 1 ≤ 64) :
    (slice v hi lo).getLsbD k = (decide (k ≤ hi - lo) && v.getLsbD (lo + k)) := by
  simp only [slice, BitVec.getLsbD_and, BitVec.getLsbD_ushiftRight, BitVec.getLsbD_ofNat, Nat.testBit_two_pow_sub_one]
  by_cases h : k ≤ hi - lo
  · simp [h, show k < hi - lo + 1 by omega, show k < 64 by omega]
  · simp [h, show ¬ k < hi - lo + 1 by omega]

/-- A word is below `2^n` exactly when its bits from `n` on are 0 (R9). -/
theorem toNat_lt_two_pow_iff (v : Word) (n : Nat) : v.toNat < 2 ^ n ↔ ∀ k, n ≤ k → v.getLsbD k = false := by
  constructor
  · intro h k hk
    rw [BitVec.getLsbD, Nat.testBit_lt_two_pow (lt_of_lt_of_le h (Nat.pow_le_pow_right (by omega) hk))]
  · intro h
    apply Nat.lt_pow_two_of_testBit
    intro k hk
    exact h k hk

theorem popcountLow_congr (u v : Word) (n : Nat) (h : ∀ i, i < n → u.getLsbD i = v.getLsbD i) :
    popcountLow u n = popcountLow v n := by
  induction n with
  | zero => rfl
  | succ n ih =>
    simp only [popcountLow]
    rw [ih (fun i hi => h i (by omega)), h n (by omega)]

theorem popcountLow_add_of_zero (v : Word) (n m : Nat) (h : ∀ i, n ≤ i → v.getLsbD i = false) :
    popcountLow v (n + m) = popcountLow v n := by
  induction m with
  | zero => rfl
  | succ m ih =>
    rw [← Nat.add_assoc]
    simp only [popcountLow]
    rw [ih, h (n + m) (by omega)]
    rfl

/-- R13: the population count of a slice is the number of set bits it takes. -/
theorem popcount_slice (v : Word) (hi lo : Nat) (hw : hi - lo + 1 ≤ 64) :
    popcount (slice v hi lo) = popcountLow (v >>> lo) (hi - lo + 1) := by
  obtain ⟨m, hm⟩ : ∃ m, 64 = (hi - lo + 1) + m := ⟨64 - (hi - lo + 1), by omega⟩
  have : popcount (slice v hi lo) = popcountLow (slice v hi lo) ((hi - lo + 1) + m) := by rw [← hm]; rfl
  rw [this, popcountLow_add_of_zero]
  · apply popcountLow_congr
    intro i hi'
    rw [slice_getLsbD _ _ _ _ hw, BitVec.getLsbD_ushiftRight]
    simp [show i ≤ hi - lo by omega]
  · intro i hi'
    rw [slice_getLsbD _ _ _ _ hw]
    simp [show ¬ i ≤ hi - lo by omega]

end Sys2Proof.Machine
end

