-- ==== Sys2Proof/Laws/Decode.lean ====
section
/-! SUPPORT. The two fields of a command word (spec/30_encoding.md R72), and the words the encoder makes of them. -/

namespace Sys2Proof

theorem opField_eq (cmd : CmdWord) : opField cmd = cmd.toNat % 256 := by
  simp [opField, BitVec.extractLsb'_toNat]

theorem idxField_eq (cmd : CmdWord) : idxField cmd = cmd.toNat / 256 := by
  have := cmd.isLt
  simp only [idxField, BitVec.extractLsb'_toNat, Nat.shiftRight_eq_div_pow]
  omega

theorem opField_lt (cmd : CmdWord) : opField cmd < 256 := by rw [opField_eq]; omega

theorem idxField_lt (cmd : CmdWord) : idxField cmd < 256 := by
  have := cmd.isLt
  rw [idxField_eq]; omega

/-- A command word is its two fields. -/
theorem eq_of_fields {c d : CmdWord} (ho : opField c = opField d) (hi : idxField c = idxField d) : c = d := by
  rw [opField_eq, opField_eq] at ho
  rw [idxField_eq, idxField_eq] at hi
  apply BitVec.eq_of_toNat_eq
  omega

theorem opcode_lt (i : Instr) : i.opcode < 256 := by cases i <;> simp [Instr.opcode]

theorem index_lt {i : Instr} (h : i.WellFormed) : i.index < 256 := by
  cases i <;> simp_all [Instr.WellFormed, Instr.wellFormed, Instr.index]

/-- R83: the assembled word as a number. -/
theorem encode_toNat {i : Instr} (h : i.WellFormed) : (encode i).toNat = i.index * 256 + i.opcode := by
  have h1 := opcode_lt i
  have h2 := index_lt h
  rw [encode, ← Nat.shiftLeft_add_eq_or_of_lt (show i.opcode < 2 ^ 8 from h1), Nat.shiftLeft_eq, BitVec.toNat_ofNat]
  exact Nat.mod_eq_of_lt (by omega)

/-- R77: an operation read from two fields has them as its code and its index. -/
theorem decodeFields_ok {op idx : Nat} {i : Instr} (h : decodeFields op idx = .ok i) :
    i.opcode = op ∧ i.index = idx := by
  unfold decodeFields at h
  split at h <;> (try unfold unindexed at h) <;> (try split at h) <;> cases h <;>
    simp_all [Instr.opcode, Instr.index]

/-- R79, R80: the two reasons a command word is illegal. -/
theorem decodeFields_error {op idx : Nat} {why : DecodeError} (h : decodeFields op idx = .error why) :
    why = .unassignedOp op ∨ why = .nonzeroIdx op idx ∧ idx ≠ 0 ∧ op ≠ 0x22 ∧ op ≠ 0x30 := by
  unfold decodeFields at h
  split at h <;> (try unfold unindexed at h) <;> (try split at h) <;> cases h <;> simp_all

end Sys2Proof
end

