-- ==== Sys2Proof/Laws/State.lean ====
section
/-! SUPPORT. One lemma per field per update of the state, so that no proof unfolds a record update. -/

namespace Sys2Proof.Machine

variable (s : State) (r : Response) (q : Request) (rest : List Request)

@[simp] theorem State.deliver_resetAsserted : (s.deliver r).resetAsserted = s.resetAsserted := rfl
@[simp] theorem State.deliver_outstanding : (s.deliver r).outstanding = s.outstanding := rfl
@[simp] theorem State.deliver_requester : (s.deliver r).requester = s.requester := rfl
@[simp] theorem State.deliver_cmd : (s.deliver r).cmd = s.cmd := rfl
@[simp] theorem State.deliver_opnd : (s.deliver r).opnd = s.opnd := rfl
@[simp] theorem State.deliver_response : (s.deliver r).response = some r := rfl
@[simp] theorem State.deliver_draw : (s.deliver r).draw = s.draw + 1 := rfl
@[simp] theorem State.deliver_waited : (s.deliver r).waited = s.waited := rfl

@[simp] theorem State.serve_resetAsserted : (s.serve q rest).resetAsserted = s.resetAsserted := rfl
@[simp] theorem State.serve_outstanding : (s.serve q rest).outstanding = rest := rfl
@[simp] theorem State.serve_requester : (s.serve q rest).requester = q.requester := rfl
@[simp] theorem State.serve_cmd : (s.serve q rest).cmd = q.cmd := rfl
@[simp] theorem State.serve_opnd : (s.serve q rest).opnd = q.opnd := rfl
@[simp] theorem State.serve_response : (s.serve q rest).response = s.response := rfl
@[simp] theorem State.serve_draw : (s.serve q rest).draw = s.draw := rfl
@[simp] theorem State.serve_waited : (s.serve q rest).waited = s.waitedAfter q := rfl

@[simp] theorem State.idle_resetAsserted : s.idle.resetAsserted = s.resetAsserted := rfl
@[simp] theorem State.idle_outstanding : s.idle.outstanding = s.outstanding := rfl
@[simp] theorem State.idle_requester : s.idle.requester = s.requester := rfl
@[simp] theorem State.idle_cmd : s.idle.cmd = s.cmd := rfl
@[simp] theorem State.idle_opnd : s.idle.opnd = s.opnd := rfl
@[simp] theorem State.idle_response : s.idle.response = none := rfl
@[simp] theorem State.idle_draw : s.idle.draw = s.draw := rfl
@[simp] theorem State.idle_waited : s.idle.waited = s.waited := rfl

@[simp] theorem State.dropAll_resetAsserted : s.dropAll.resetAsserted = s.resetAsserted := rfl
@[simp] theorem State.dropAll_outstanding : s.dropAll.outstanding = [] := rfl
@[simp] theorem State.dropAll_requester : s.dropAll.requester = s.requester := rfl
@[simp] theorem State.dropAll_cmd : s.dropAll.cmd = s.cmd := rfl
@[simp] theorem State.dropAll_opnd : s.dropAll.opnd = s.opnd := rfl
@[simp] theorem State.dropAll_response : s.dropAll.response = none := rfl
@[simp] theorem State.dropAll_draw : s.dropAll.draw = s.draw := rfl
@[simp] theorem State.dropAll_waited : s.dropAll.waited = 0 := rfl

@[simp] theorem State.assertReset_resetAsserted : s.assertReset.resetAsserted = true := rfl
@[simp] theorem State.assertReset_outstanding : s.assertReset.outstanding = [] := rfl
@[simp] theorem State.assertReset_response : s.assertReset.response = none := rfl
@[simp] theorem State.assertReset_requester : s.assertReset.requester = s.requester := rfl
@[simp] theorem State.assertReset_cmd : s.assertReset.cmd = s.cmd := rfl
@[simp] theorem State.assertReset_opnd : s.assertReset.opnd = s.opnd := rfl
@[simp] theorem State.assertReset_draw : s.assertReset.draw = s.draw := rfl
@[simp] theorem State.assertReset_waited : s.assertReset.waited = 0 := rfl

@[simp] theorem State.releaseReset_resetAsserted : s.releaseReset.resetAsserted = false := rfl
@[simp] theorem State.releaseReset_outstanding : s.releaseReset.outstanding = s.outstanding := rfl
@[simp] theorem State.releaseReset_response : s.releaseReset.response = s.response := rfl
@[simp] theorem State.releaseReset_cmd : s.releaseReset.cmd = s.cmd := rfl
@[simp] theorem State.releaseReset_opnd : s.releaseReset.opnd = s.opnd := rfl
@[simp] theorem State.releaseReset_requester : s.releaseReset.requester = s.requester := rfl
@[simp] theorem State.releaseReset_draw : s.releaseReset.draw = s.draw := rfl
@[simp] theorem State.releaseReset_waited : s.releaseReset.waited = s.waited := rfl

@[simp] theorem State.issue_resetAsserted : (s.issue q).resetAsserted = s.resetAsserted := by
  unfold State.issue; split <;> rfl
@[simp] theorem State.issue_requester : (s.issue q).requester = s.requester := by
  unfold State.issue; split <;> rfl
@[simp] theorem State.issue_cmd : (s.issue q).cmd = s.cmd := by
  unfold State.issue; split <;> rfl
@[simp] theorem State.issue_opnd : (s.issue q).opnd = s.opnd := by
  unfold State.issue; split <;> rfl
@[simp] theorem State.issue_response : (s.issue q).response = s.response := by
  unfold State.issue; split <;> rfl
@[simp] theorem State.issue_draw : (s.issue q).draw = s.draw := by
  unfold State.issue; split <;> rfl
@[simp] theorem State.issue_waited : (s.issue q).waited = s.waited := by
  unfold State.issue; split <;> rfl

/-- R230: an accepted request stands last among the outstanding ones. -/
theorem State.issue_outstanding (h : s.resetAsserted = false) :
    (s.issue q).outstanding = s.outstanding ++ [q] := by simp [State.issue, h]

/-- R230: a request issued while reset is asserted changes nothing. -/
theorem State.issue_refused (h : s.resetAsserted = true) : s.issue q = s := by simp [State.issue, h]

end Sys2Proof.Machine
end

