-- ==== Sys2Proof/Laws/Ops.lean ====
section
/-! SUPPORT. What each shared operation can do, said once: ending a transaction, the width check, and the host's
serialisation. -/

namespace Sys2Proof.Machine

/-- Ending a transaction delivers the response and does nothing else, whichever way it ends (R14). -/
@[simp] theorem complete_eq (r : Response) (s : State) : complete r s = .next (s.deliver r) := by
  cases r <;> rfl

@[simp] theorem raise_eq (e : Error) (s : State) : raise e s = .next (s.deliver (.err e)) := rfl

@[simp] theorem returnWord_eq (v : Word) (s : State) : returnWord v s = .next (s.deliver (.ok v)) := rfl

@[simp] theorem illegal_eq (why : DecodeError) (s : State) :
    illegal why s = .next (s.deliver (.err .illegalCommand)) := rfl

@[simp] theorem fitsWidth_iff (v : Word) (w : Nat) : fitsWidth v w = true ↔ v.toNat < 2 ^ w := by simp [fitsWidth]

/-- R15: within the width the check passes and the rule computes. -/
theorem checked_of_fits {w : Nat} {v : Word} (f : Word → Word) (h : v.toNat < 2 ^ w) :
    checked w v f = .ok (f v) := by simp [checked, h]

/-- R15: beyond the width nothing is computed. -/
theorem checked_of_not_fits {w : Nat} {v : Word} (f : Word → Word) (h : ¬ v.toNat < 2 ^ w) :
    checked w v f = .err .invalidWidthRange := by simp [checked, h]

/-- R71, R201: no value of the 64-bit port is too wide for a 64-bit operand. -/
@[simp] theorem checked_64 (v : Word) (f : Word → Word) : checked 64 v f = .ok (f v) :=
  checked_of_fits f v.isLt

@[simp] theorem sboxIndexLegal_iff (n : Nat) : sboxIndexLegal n = true ↔ 1 ≤ n ∧ n ≤ 8 := by simp [sboxIndexLegal]

@[simp] theorem roundLegal_iff (r : Nat) : roundLegal r = true ↔ 1 ≤ r ∧ r ≤ 16 := by simp [roundLegal]

@[simp] theorem serialise_length (v : Word) : (serialise v).length = 8 := by simp [serialise]

/-- R51: byte 1, the first sent, is the most significant byte of the word. -/
theorem serialise_get (v : Word) (k : Nat) (h1 : 1 ≤ k) (h2 : k ≤ 8) :
    (serialise v)[k - 1]? = some ((byteOf v k).setWidth 8) := by
  simp [serialise, show k - 1 < 8 by omega, show 1 + (k - 1) = k by omega]

end Sys2Proof.Machine
end

