-- ==== Sys2Proof/Laws/Permutations.lean ====
section
/-! SUPPORT. `permute` and `scatter` meet the contracts the spec states of them (spec/00_scope.md R12), for any table
within the word; and what the four named halves of a table fact are. -/

namespace Sys2Proof.Machine

/-- R12: `permute` selects. -/
theorem selects_permute (T : List Nat) (w : Nat) (v : Word) (hT : T.length ≤ 64) : Selects T w v (permute T w v) := by
  constructor
  · rw [toNat_lt_two_pow_iff]
    intro k hk
    rw [permute_getLsbD _ _ _ _ hT]
    simp [show ¬ k < T.length by omega]
  · intro i h1 h2
    rw [pos_eq_pos_iff, permute_getLsbD _ _ _ _ hT]
    simp [show T.length - i < T.length by omega, show T.length - (T.length - i) = i by omega]

/-- A table that names each position at most once names it at one place. -/
theorem entry_inj {T : List Nat} (hn : T.Nodup) {i j : Nat} (hi : 1 ≤ i ∧ i ≤ T.length) (hj : 1 ≤ j ∧ j ≤ T.length)
    (h : Tables.entry T i = Tables.entry T j) : i = j := by
  have hi' : i - 1 < T.length := by omega
  have hj' : j - 1 < T.length := by omega
  simp only [Tables.entry, List.getD_eq_getElem?_getD, List.getElem?_eq_getElem hi', List.getElem?_eq_getElem hj',
    Option.getD_some] at h
  have := (List.Nodup.getElem_inj_iff hn).mp h
  omega

/-- R12: the bit of `scatter` at the position where input position `i` goes. -/
theorem scatter_getLsbD_entry {T : List Nat} {w : Nat} (v : Word) (hw : w ≤ 64) (hn : T.Nodup)
    (hT : ∀ t ∈ T, 1 ≤ t ∧ t ≤ w) {i : Nat} (h1 : 1 ≤ i) (h2 : i ≤ T.length) :
    (scatter T w v).getLsbD (w - Tables.entry T i) = v.getLsbD (T.length - i) := by
  have hi := hT _ (entry_mem T i h1 h2)
  rw [Bool.eq_iff_iff, scatter_getLsbD _ _ _ _ (by omega)]
  constructor
  · rintro ⟨j, h3, h4, h5, h6⟩
    have hj := hT _ (entry_mem T j h3 h4)
    rwa [entry_inj hn ⟨h1, h2⟩ ⟨h3, h4⟩ (by omega)]
  · exact fun h => ⟨i, h1, h2, rfl, h⟩

/-- R12: `scatter` scatters, for a table that names each position of its range at most once. -/
theorem scatters_scatter (T : List Nat) (w : Nat) (v : Word) (hw : w ≤ 64) (hn : T.Nodup)
    (hT : ∀ t ∈ T, 1 ≤ t ∧ t ≤ w) : Scatters T w v (scatter T w v) := by
  refine ⟨?_, ?_, ?_⟩
  · rw [toNat_lt_two_pow_iff]
    intro k hk
    by_cases h64 : k < 64
    · rw [Bool.eq_false_iff, Ne, scatter_getLsbD _ _ _ _ h64]
      rintro ⟨i, h1, h2, h3, -⟩
      have := hT _ (entry_mem T i h1 h2)
      omega
    · exact BitVec.getLsbD_of_ge _ _ (by omega)
  · intro i h1 h2
    rw [pos_eq_pos_iff]
    exact scatter_getLsbD_entry v hw hn hT h1 h2
  · intro p h1 h2 h3
    rw [pos_eq_zero_iff, Bool.eq_false_iff, Ne, scatter_getLsbD _ _ _ _ (by omega)]
    rintro ⟨i, h4, h5, h6, -⟩
    have hi := hT _ (entry_mem T i h4 h5)
    exact h3 (by rw [show p = Tables.entry T i by omega]; exact entry_mem T i h4 h5)

/-- A word of width `w` is given by its positions (R9, R10). -/
theorem eq_of_pos {u v : Word} {w : Nat} (hu : u.toNat < 2 ^ w) (hv : v.toNat < 2 ^ w)
    (h : ∀ p, 1 ≤ p → p ≤ w → pos u w p = pos v w p) : u = v := by
  rw [toNat_lt_two_pow_iff] at hu hv
  apply BitVec.eq_of_getLsbD_eq
  intro k _
  by_cases hk : k < w
  · have := (pos_eq_pos_iff u v w w (w - k) (w - k)).mp (h (w - k) (by omega) (by omega))
    rwa [show w - (w - k) = k by omega] at this
  · rw [hu k (by omega), hv k (by omega)]

/-- Selecting by a table undoes scattering by it (R12), on words of the table's length. -/
theorem permute_scatter {T : List Nat} {w : Nat} (v : Word) (hw : w ≤ 64) (hl : T.length ≤ 64)
    (hT : T.Nodup ∧ ∀ t ∈ T, 1 ≤ t ∧ t ≤ w) (hv : v.toNat < 2 ^ T.length) : permute T w (scatter T w v) = v := by
  apply eq_of_pos (w := T.length) (selects_permute T w _ hl).1 hv
  intro p h1 h2
  rw [(selects_permute T w _ hl).2 p h1 h2, (scatters_scatter T w v hw hT.1 hT.2).2.1 p h1 h2]

/-- Scattering by a table after selecting by it keeps the positions the table names, and clears the others (R12). -/
theorem scatter_permute_getLsbD {T : List Nat} {w : Nat} (v : Word) (hw : w ≤ 64) (hl : T.length ≤ 64)
    (hT : T.Nodup ∧ ∀ t ∈ T, 1 ≤ t ∧ t ≤ w) {k : Nat} (hk : k < w) :
    (scatter T w (permute T w v)).getLsbD k = (decide (w - k ∈ T) && v.getLsbD k) := by
  have hs := scatters_scatter T w (permute T w v) hw hT.1 hT.2
  by_cases hm : w - k ∈ T
  · obtain ⟨i, hi, he⟩ := List.mem_iff_getElem.mp hm
    have e : Tables.entry T (i + 1) = w - k := by simp [Tables.entry, List.getD, hi, he]
    have h := hs.2.1 (i + 1) (by omega) (by omega)
    rw [(selects_permute T w v hl).2 _ (by omega) (by omega), e, pos_eq_pos_iff, show w - (w - k) = k by omega] at h
    simp [hm, h]
  · have h := hs.2.2 (w - k) (by omega) (by omega) hm
    rw [pos_eq_zero_iff, show w - (w - k) = k by omega] at h
    simp [hm, h]

@[simp] theorem ip_length : Tables.ip.length = 64 := rfl
@[simp] theorem fp_length : Tables.fp.length = 64 := rfl
@[simp] theorem e_length : Tables.e.length = 48 := rfl
@[simp] theorem p_length : Tables.p.length = 32 := rfl
@[simp] theorem pc1_length : Tables.pc1.length = 56 := rfl
@[simp] theorem pc2_length : Tables.pc2.length = 48 := rfl

theorem pc1_positions : Tables.pc1.Nodup ∧ ∀ t ∈ Tables.pc1, 1 ≤ t ∧ t ≤ 64 := by decide
theorem pc2_positions : Tables.pc2.Nodup ∧ ∀ t ∈ Tables.pc2, 1 ≤ t ∧ t ≤ 56 := by decide
theorem p_positions : Tables.p.Nodup ∧ ∀ t ∈ Tables.p, 1 ≤ t ∧ t ≤ 32 := by decide
theorem ip_positions : Tables.ip.Nodup ∧ ∀ t ∈ Tables.ip, 1 ≤ t ∧ t ≤ 64 := by decide
theorem fp_positions : Tables.fp.Nodup ∧ ∀ t ∈ Tables.fp, 1 ≤ t ∧ t ≤ 64 := by decide
theorem e_positions : ∀ t ∈ Tables.e, 1 ≤ t ∧ t ≤ 32 := by decide

end Sys2Proof.Machine
end

