-- ==== Sys2Proof/Laws/Einv.lean ====
section
/-! SUPPORT. The inverse of E: which positions are copies, and which bit each bit of the result is
(spec/41_inverses.md R134, R135). -/

namespace Sys2Proof.Machine

/-- R134: the output positions of input position `j` are those whose entry in E is `j`. -/
theorem mem_outs (i j : Nat) : i ∈ outs j ↔ (1 ≤ i ∧ i ≤ 48) ∧ Tables.entry Tables.e i = j := by
  simp only [outs, List.mem_filter, List.mem_range'_1, beq_iff_eq]
  omega

/-- R134: every input position has one output position or two. -/
theorem outs_cases : ∀ j ∈ List.range' 1 32, (∃ i, outs j = [i]) ∨ ∃ i i', outs j = [i, i'] := by
  have h : ∀ j ∈ List.range' 1 32, (outs j).length = 1 ∨ (outs j).length = 2 := by decide
  intro j hj
  rcases h j hj with h | h
  · exact .inl (List.length_eq_one_iff.mp h)
  · exact .inr (List.length_eq_two.mp h)

/-- R135: the first copy the rule reads. -/
theorem head_outs_mem {j : Nat} (h1 : 1 ≤ j) (h2 : j ≤ 32) : (outs j).headD 0 ∈ outs j := by
  rcases outs_cases j (by simp; omega) with ⟨i, h⟩ | ⟨i, i', h⟩ <;> simp [h]

/-- R202: the copies disagree exactly when two output positions of one input position hold different bits. -/
theorem ambiguous_iff (v : Word) : ambiguous v = true ↔ CopiesConflict v := by
  unfold ambiguous CopiesConflict
  rw [List.any_eq_true]
  constructor
  · rintro ⟨j, hj, h⟩
    rcases outs_cases j hj with ⟨i, ho⟩ | ⟨i, i', ho⟩
    · simp [copiesDisagree, ho] at h
    · have hi := (mem_outs i j).mp (by simp [ho])
      have hi' := (mem_outs i' j).mp (by simp [ho])
      simp only [copiesDisagree, ho, bne_iff_ne, ne_eq] at h
      exact ⟨i, i', hi.1.1, hi.1.2, hi'.1.1, hi'.1.2, by rw [hi.2, hi'.2], fun e => h e.symm⟩
  · rintro ⟨i, i', h1, h2, h3, h4, h5, h6⟩
    have hj := e_positions _ (entry_mem Tables.e i h1 h2)
    refine ⟨Tables.entry Tables.e i, by simp; omega, ?_⟩
    have hi := (mem_outs i (Tables.entry Tables.e i)).mpr ⟨⟨h1, h2⟩, rfl⟩
    have hi' := (mem_outs i' (Tables.entry Tables.e i)).mpr ⟨⟨h3, h4⟩, h5.symm⟩
    rcases outs_cases _ (show Tables.entry Tables.e i ∈ List.range' 1 32 by simp; omega) with ⟨a, ho⟩ | ⟨a, b, ho⟩
    · rw [ho, List.mem_singleton] at hi hi'
      exact absurd (by rw [hi, hi']) h6
    · simp only [ho, List.mem_cons, List.not_mem_nil, or_false] at hi hi'
      simp only [copiesDisagree, ho, bne_iff_ne, ne_eq]
      rcases hi with rfl | rfl <;> rcases hi' with rfl | rfl
      · exact absurd rfl h6
      · exact fun e => h6 e.symm
      · exact h6
      · exact absurd rfl h6

theorem gatherCopies_getLsbD (v : Word) (js : List Nat) (k : Nat) (hk : k < 64) :
    (gatherCopies v js).getLsbD k = true ↔
      ∃ j ∈ js, 32 - j = k ∧ v.getLsbD (48 - (outs j).headD 0) = true := by
  induction js with
  | nil => simp [gatherCopies]
  | cons j js ih =>
    simp only [gatherCopies, BitVec.getLsbD_or, BitVec.getLsbD_shiftLeft, pos, bitAt_getLsbD, Bool.or_eq_true, ih,
      List.exists_mem_cons_iff]
    apply or_congr_left
    simp only [hk, decide_true, Bool.true_and, Bool.and_eq_true, Bool.not_eq_true', decide_eq_false_iff_not,
      decide_eq_true_eq]
    constructor
    · rintro ⟨h1, h2, h3⟩; exact ⟨by omega, h3⟩
    · rintro ⟨h1, h2⟩; exact ⟨by omega, by omega, h2⟩

/-- R135: bit `32 - j` of the result is the first copy of input position `j`. -/
theorem einvFn_getLsbD (v : Word) (j : Nat) (h1 : 1 ≤ j) (h2 : j ≤ 32) :
    (einvFn v).getLsbD (32 - j) = v.getLsbD (48 - (outs j).headD 0) := by
  rw [Bool.eq_iff_iff, einvFn, gatherCopies_getLsbD _ _ _ (by omega)]
  constructor
  · rintro ⟨j', hj, he, h⟩
    rw [List.mem_range'_1] at hj
    rwa [show j = j' by omega]
  · exact fun h => ⟨j, by rw [List.mem_range'_1]; omega, rfl, h⟩

/-- R16: the result is a 32-bit word. -/
theorem einvFn_lt (v : Word) : (einvFn v).toNat < 2 ^ 32 := by
  rw [toNat_lt_two_pow_iff]
  intro k hk
  by_cases h64 : k < 64
  · rw [Bool.eq_false_iff, Ne, einvFn, gatherCopies_getLsbD _ _ _ h64]
    rintro ⟨j, hj, he, -⟩
    rw [List.mem_range'_1] at hj
    omega
  · exact BitVec.getLsbD_of_ge _ _ (by omega)

/-- R135: where the copies agree, every output position of E holds the bit of its input position in the result. -/
theorem einvFn_pos (v : Word) (h : ambiguous v = false) (i : Nat) (h1 : 1 ≤ i) (h2 : i ≤ 48) :
    pos (einvFn v) 32 (Tables.entry Tables.e i) = pos v 48 i := by
  have hj := e_positions _ (entry_mem Tables.e i h1 h2)
  have hm := (mem_outs _ _).mp (head_outs_mem hj.1 hj.2)
  by_contra hne
  have : CopiesConflict v := by
    refine ⟨i, _, h1, h2, hm.1.1, hm.1.2, hm.2.symm, ?_⟩
    intro e
    apply hne
    rw [pos_eq_pos_iff] at e ⊢
    rw [einvFn_getLsbD _ _ hj.1 hj.2, ← e]
  rw [← ambiguous_iff, h] at this
  exact absurd this (by decide)

end Sys2Proof.Machine
end

