-- ==== Sys2Proof/Laws/Rotate.lean ====
section
/-! SUPPORT. The half rotations bit by bit, and applied many times (spec/42_rotate.md R160, R161). -/

namespace Sys2Proof.Machine

theorem getLsbD_28_ones (k : Nat) : (0xFFFFFFF : Word).getLsbD k = decide (k < 28) := by
  rw [show (0xFFFFFFF : Word) = BitVec.ofNat 64 (2 ^ 28 - 1) from rfl, BitVec.getLsbD_ofNat,
    Nat.testBit_two_pow_sub_one]
  by_cases h : k < 28 <;> simp [h]
  omega

theorem rotateHalfLeft_getLsbD (h : Word) (hh : ∀ k, 28 ≤ k → h.getLsbD k = false) (k : Nat) :
    (rotateHalfLeft h).getLsbD k =
      if k = 0 then h.getLsbD 27 else if k < 28 then h.getLsbD (k - 1) else false := by
  simp only [rotateHalfLeft, BitVec.getLsbD_and, BitVec.getLsbD_or, BitVec.getLsbD_shiftLeft,
    BitVec.getLsbD_ushiftRight, getLsbD_28_ones]
  by_cases h0 : k = 0
  · subst h0; simp
  · rw [hh (27 + k) (by omega)]
    by_cases h1 : k < 28
    · simp [h0, h1, show k < 64 by omega]
    · simp [h0, h1]

theorem rotateHalfRight_getLsbD (h : Word) (hh : ∀ k, 28 ≤ k → h.getLsbD k = false) (k : Nat) :
    (rotateHalfRight h).getLsbD k =
      if k = 27 then h.getLsbD 0 else if k < 27 then h.getLsbD (k + 1) else false := by
  simp only [rotateHalfRight, BitVec.getLsbD_and, BitVec.getLsbD_or, BitVec.getLsbD_shiftLeft,
    BitVec.getLsbD_ushiftRight]
  have h1 : ∀ j, (1 : Word).getLsbD j = decide (j = 0) := by
    intro j
    by_cases hj : j = 0 <;> simp [hj, BitVec.getLsbD_one]
  rw [h1, Nat.add_comm 1 k]
  rcases Nat.lt_trichotomy k 27 with hk | hk | hk
  · simp [hk, show k ≠ 27 by omega]
  · subst hk
    rw [hh (27 + 1) (by omega)]
    simp
  · rw [hh (k + 1) (by omega)]
    simp [show k ≠ 27 by omega, show ¬ k < 27 by omega, show k - 27 ≠ 0 by omega]

theorem halfC_getLsbD (v : Word) (k : Nat) : (halfC v).getLsbD k = (decide (k < 28) && v.getLsbD (28 + k)) := by
  rw [halfC, slice_getLsbD _ _ _ _ (by omega)]
  by_cases h : k < 28
  · simp [h, show k ≤ 55 - 28 by omega]
  · simp [h, show ¬ k ≤ 55 - 28 by omega]

theorem halfD_getLsbD (v : Word) (k : Nat) : (halfD v).getLsbD k = (decide (k < 28) && v.getLsbD k) := by
  rw [halfD, slice_getLsbD _ _ _ _ (by omega)]
  by_cases h : k < 28
  · simp [h, show k ≤ 27 - 0 by omega]
  · simp [h, show ¬ k ≤ 27 - 0 by omega]

/-- R11: two 28-bit halves side by side. -/
theorem concat_getLsbD (a b : Word) (ha : ∀ k, 28 ≤ k → a.getLsbD k = false)
    (hb : ∀ k, 28 ≤ k → b.getLsbD k = false) (k : Nat) :
    (concat a b 28).getLsbD k = if k < 28 then b.getLsbD k else a.getLsbD (k - 28) := by
  simp only [concat, BitVec.getLsbD_or, BitVec.getLsbD_shiftLeft]
  by_cases h : k < 28
  · simp [h]
  · rw [hb k (by omega)]
    by_cases h64 : k < 64
    · simp [h, h64]
    · simp [h, h64, ha (k - 28) (by omega)]

/-- R160: where each bit of the rotated word comes from. Bits 0 and 28 are positions 56 and 28, the last of each half. -/
theorem lsFn_getLsbD (v : Word) (k : Nat) :
    (lsFn v).getLsbD k =
      if k = 0 then v.getLsbD 27 else if k = 28 then v.getLsbD 55
      else if k < 56 then v.getLsbD (k - 1) else false := by
  have hc : ∀ j, 28 ≤ j → (halfC v).getLsbD j = false := by intro j hj; rw [halfC_getLsbD]; simp; omega
  have hd : ∀ j, 28 ≤ j → (halfD v).getLsbD j = false := by intro j hj; rw [halfD_getLsbD]; simp; omega
  unfold lsFn
  rw [concat_getLsbD]
  · rw [rotateHalfLeft_getLsbD _ hc, rotateHalfLeft_getLsbD _ hd]
    simp only [halfC_getLsbD, halfD_getLsbD]
    by_cases h : k < 28
    · by_cases h0 : k = 0
      · subst h0; simp
      · simp [h, h0, show k ≠ 28 by omega, show k - 1 < 28 by omega, show k < 56 by omega]
    · by_cases h0 : k = 28
      · subst h0; simp
      · by_cases h1 : k < 56
        · simp [h, h0, h1, show k ≠ 0 by omega, show k - 28 ≠ 0 by omega, show k - 28 < 28 by omega,
            show k - 28 - 1 < 28 by omega, show 28 + (k - 28 - 1) = k - 1 by omega]
        · simp [h, h0, h1, show k ≠ 0 by omega, show k - 28 ≠ 0 by omega, show ¬ k - 28 < 28 by omega]
  · intro j hj
    rw [rotateHalfLeft_getLsbD _ hc]
    simp [show j ≠ 0 by omega, show ¬ j < 28 by omega]
  · intro j hj
    rw [rotateHalfLeft_getLsbD _ hd]
    simp [show j ≠ 0 by omega, show ¬ j < 28 by omega]

/-- R161: where each bit of the rotated word comes from. Bits 27 and 55 are positions 29 and 1, the first of each half. -/
theorem rsFn_getLsbD (v : Word) (k : Nat) :
    (rsFn v).getLsbD k =
      if k = 27 then v.getLsbD 0 else if k = 55 then v.getLsbD 28
      else if k < 56 then v.getLsbD (k + 1) else false := by
  have hc : ∀ j, 28 ≤ j → (halfC v).getLsbD j = false := by intro j hj; rw [halfC_getLsbD]; simp; omega
  have hd : ∀ j, 28 ≤ j → (halfD v).getLsbD j = false := by intro j hj; rw [halfD_getLsbD]; simp; omega
  unfold rsFn
  rw [concat_getLsbD]
  · rw [rotateHalfRight_getLsbD _ hc, rotateHalfRight_getLsbD _ hd]
    simp only [halfC_getLsbD, halfD_getLsbD]
    by_cases h : k < 28
    · by_cases h0 : k = 27
      · subst h0; simp
      · simp [h, h0, show k ≠ 55 by omega, show k < 27 by omega, show k + 1 < 28 by omega, show k < 56 by omega]
    · by_cases h0 : k = 55
      · subst h0; simp
      · by_cases h1 : k < 56
        · simp [h, h0, h1, show k ≠ 27 by omega, show k - 28 ≠ 27 by omega, show k - 28 < 27 by omega,
            show k - 28 + 1 < 28 by omega, show 28 + (k - 28 + 1) = k + 1 by omega]
        · simp [h, h0, h1, show k ≠ 27 by omega, show k - 28 ≠ 27 by omega, show ¬ k - 28 < 27 by omega]
  · intro j hj
    rw [rotateHalfRight_getLsbD _ hc]
    simp [show j ≠ 27 by omega, show ¬ j < 27 by omega]
  · intro j hj
    rw [rotateHalfRight_getLsbD _ hd]
    simp [show j ≠ 27 by omega, show ¬ j < 27 by omega]

/-- R16: a rotated word is a 56-bit word. -/
theorem lsFn_lt (v : Word) : (lsFn v).toNat < 2 ^ 56 := by
  rw [toNat_lt_two_pow_iff]
  intro k hk
  rw [lsFn_getLsbD, if_neg (by omega), if_neg (by omega), if_neg (by omega)]

/-- R16: a rotated word is a 56-bit word. -/
theorem rsFn_lt (v : Word) : (rsFn v).toNat < 2 ^ 56 := by
  rw [toNat_lt_two_pow_iff]
  intro k hk
  rw [rsFn_getLsbD, if_neg (by omega), if_neg (by omega), if_neg (by omega)]

end Sys2Proof.Machine
end

