-- ==== Sys2Proof/Laws/Sbox.lean ====
section
/-! SUPPORT. The S-box lookups: their outputs are 4-bit values, and which nibble of SBOXES is which lookup
(spec/43_sbox.md R180, R182). -/

namespace Sys2Proof.Machine

/-- R34: every entry of every S-box is a 4-bit value. -/
theorem sbox_entries_lt : ∀ S ∈ Tables.sboxes, ∀ row ∈ S, ∀ x ∈ row, x < 16 := by decide

theorem sbox_entry_lt (n a b : Nat) : ((Tables.sboxes.getD n []).getD a []).getD b 0 < 16 := by
  simp only [List.getD_eq_getElem?_getD]
  cases hs : Tables.sboxes[n]? with
  | none => simp
  | some S =>
    cases hr : S[a]? with
    | none => simp [hr]
    | some row =>
      cases hx : row[b]? with
      | none => simp [hr, hx]
      | some x =>
        simpa [hr, hx] using
          sbox_entries_lt S (List.mem_of_getElem? hs) row (List.mem_of_getElem? hr) x (List.mem_of_getElem? hx)

theorem sboxFn_lt (n : Nat) (v : Word) : (sboxFn n v).toNat < 2 ^ 4 := by
  have := sbox_entry_lt (n - 1) (sboxRow v) (sboxCol v)
  rw [sboxFn, zext64, BitVec.toNat_ofNat, Nat.mod_eq_of_lt (by omega)]
  exact this

theorem sboxFn_getLsbD_high (n : Nat) (v : Word) {k : Nat} (hk : 4 ≤ k) : (sboxFn n v).getLsbD k = false :=
  (toNat_lt_two_pow_iff _ 4).mp (sboxFn_lt n v) k hk

/-- R180: row and column as numbers, for a 6-bit input. -/
theorem sboxRow_eq (v : Word) (h : v.toNat < 64) : sboxRow v = 2 * (v.toNat / 32) + v.toNat % 2 := by
  have : ∀ n, n < 64 → sboxRow (BitVec.ofNat 64 n) = 2 * (n / 32) + n % 2 := by decide
  rw [← this _ h, BitVec.ofNat_toNat, BitVec.setWidth_eq]

theorem sboxCol_eq (v : Word) (h : v.toNat < 64) : sboxCol v = v.toNat / 2 % 16 := by
  have : ∀ n, n < 64 → sboxCol (BitVec.ofNat 64 n) = n / 2 % 16 := by decide
  rw [← this _ h, BitVec.ofNat_toNat, BitVec.setWidth_eq]

theorem sboxGroup_toNat (v : Word) (g : Nat) : (sboxGroup v g).toNat = v.toNat / 2 ^ (48 - 6 * g) % 64 := by
  rw [sboxGroup, BitVec.toNat_and, BitVec.toNat_ushiftRight, Nat.shiftRight_eq_div_pow,
    show (0x3F : Word).toNat = 2 ^ 6 - 1 from rfl, Nat.and_two_pow_sub_one_eq_mod]

/-- R183: the group SBOXES feeds to S-box `g` is the slice `v[53-6g : 48-6g]`. -/
theorem sboxGroup_eq_slice (v : Word) (g : Nat) (h1 : 1 ≤ g) (h2 : g ≤ 8) :
    sboxGroup v g = slice v (53 - 6 * g) (48 - 6 * g) := by
  rw [slice, show 53 - 6 * g - (48 - 6 * g) + 1 = 6 by omega]
  rfl

theorem sboxLanes_getLsbD (v : Word) (gs : List Nat) (k : Nat) (hk : k < 64) :
    (sboxLanes v gs).getLsbD k = true ↔
      ∃ g ∈ gs, 32 - 4 * g ≤ k ∧ (sboxFn g (sboxGroup v g)).getLsbD (k - (32 - 4 * g)) = true := by
  induction gs with
  | nil => simp [sboxLanes]
  | cons g gs ih =>
    simp only [sboxLanes, BitVec.getLsbD_or, BitVec.getLsbD_shiftLeft, Bool.or_eq_true, ih, List.exists_mem_cons_iff]
    apply or_congr_left
    simp [hk]

/-- R182: nibble `g` of the result is the lookup of group `g`. -/
theorem sboxesFn_nibble (v : Word) (g : Nat) (h1 : 1 ≤ g) (h2 : g ≤ 8) :
    slice (sboxesFn v) (35 - 4 * g) (32 - 4 * g) = sboxFn g (sboxGroup v g) := by
  apply BitVec.eq_of_getLsbD_eq
  intro k _
  rw [slice_getLsbD _ _ _ _ (by omega)]
  by_cases hk : k < 4
  · rw [decide_eq_true (show k ≤ 35 - 4 * g - (32 - 4 * g) by omega), Bool.true_and, Bool.eq_iff_iff, sboxesFn,
      sboxLanes_getLsbD _ _ _ (by omega)]
    constructor
    · rintro ⟨g', hg, h3, h4⟩
      rw [List.mem_range'_1] at hg
      by_cases he : 4 ≤ 32 - 4 * g + k - (32 - 4 * g')
      · rw [sboxFn_getLsbD_high _ _ he] at h4
        exact absurd h4 (by decide)
      · have hgg : g' = g := by omega
        subst hgg
        rwa [show 32 - 4 * g' + k - (32 - 4 * g') = k by omega] at h4
    · intro h
      refine ⟨g, by rw [List.mem_range'_1]; omega, by omega, ?_⟩
      rwa [show 32 - 4 * g + k - (32 - 4 * g) = k by omega]
  · rw [decide_eq_false (show ¬ k ≤ 35 - 4 * g - (32 - 4 * g) by omega), Bool.false_and,
      sboxFn_getLsbD_high _ _ (by omega)]

/-- R16: the result is a 32-bit word. -/
theorem sboxesFn_lt (v : Word) : (sboxesFn v).toNat < 2 ^ 32 := by
  rw [toNat_lt_two_pow_iff]
  intro k hk
  by_cases h64 : k < 64
  · rw [Bool.eq_false_iff, Ne, sboxesFn, sboxLanes_getLsbD _ _ _ h64]
    rintro ⟨g, hg, h1, h2⟩
    rw [List.mem_range'_1] at hg
    rw [sboxFn_getLsbD_high _ _ (by omega)] at h2
    exact absurd h2 (by decide)
  · exact BitVec.getLsbD_of_ge _ _ (by omega)

end Sys2Proof.Machine
end

