-- ==== Sys2Proof/Laws/Meanings.lean ====
section
/-! SUPPORT. Every operation's meaning in one form: it delivers its response to the operand on the port and changes
nothing else (spec/20_memory.md R55, spec/60_exceptions.md R206). -/

namespace Sys2Proof.Machine

/-- The response of each operation to an operand, as its rule gives it. -/
def respond : Instr → Word → Response
  | .ip => respIp
  | .fp => respFp
  | .e => respE
  | .p => respP
  | .pc1 => respPc1
  | .pc2 => respPc2
  | .ipinv => respIpinv
  | .fpinv => respFpinv
  | .einv => respEinv
  | .pinv => respPinv
  | .pc1inv => respPc1inv
  | .pc2inv => respPc2inv
  | .parity => respParity
  | .ls => respLs
  | .rs => respRs
  | .rsched r => respRsched r
  | .sbox n => respSbox n
  | .sboxes => respSboxes

/-- What an operation does to a state, whichever operation it is. -/
theorem exec_eq (i : Instr) (s : State) : exec i s = .next (s.deliver (respond i s.opnd)) := by
  cases i <;> exact complete_eq _ s

theorem exec_eq_iff (i : Instr) (s : State) (r : Response) :
    exec i s = .next (s.deliver r) ↔ respond i s.opnd = r := by
  rw [exec_eq]
  refine ⟨fun h => ?_, fun h => by rw [h]⟩
  simpa using congrArg State.response (Host.Outcome.next.inj h)

/-- An operation answers what its rule responds. -/
theorem answers_iff (i : Instr) (v : Word) (r : Response) : Answers i v r ↔ respond i v = r := by
  constructor
  · intro h
    have := h { State.reset with opnd := v } rfl
    rw [exec_eq, Host.Outcome.next.injEq] at this
    have := congrArg State.response this
    simpa using this
  · rintro rfl s rfl
    exact exec_eq i s

/-- The answer to a request is one: an operation never answers two ways. -/
theorem Answers.unique {i : Instr} {v : Word} {r r' : Response} (h : Answers i v r) (h' : Answers i v r') : r = r' := by
  rw [answers_iff] at h h'
  exact h.symm.trans h'

/-- The four ways an operation can respond: index out of range, operand too wide, ambiguous copies, or a result no wider
than declared. -/
inductive Responds (i : Instr) (v : Word) : Prop where
  | badIndex (h : ¬ IndexLegal i) (e : respond i v = .err .invalidWidthRange)
  | tooWide (h : IndexLegal i) (hw : 2 ^ win i ≤ v.toNat) (e : respond i v = .err .invalidWidthRange)
  | ambiguous (h : i = .einv) (hw : v.toNat < 2 ^ 48) (hc : CopiesConflict v) (e : respond i v = .err .ambiguousInput)
  | result (h : IndexLegal i) (hw : v.toNat < 2 ^ win i) (hc : ¬ (i = .einv ∧ CopiesConflict v)) (r : Word)
      (e : respond i v = .ok r) (hr : r.toNat < 2 ^ wout i)

/-- An operation whose rule is a width check and then a computation. -/
theorem Responds.of_checked {i : Instr} {v : Word} (f : Word → Word) (hi : i ≠ .einv)
    (hl : IndexLegal i → respond i v = checked (win i) v f)
    (hn : ¬ IndexLegal i → respond i v = .err .invalidWidthRange)
    (hf : IndexLegal i → (f v).toNat < 2 ^ wout i) : Responds i v := by
  by_cases h : IndexLegal i
  · by_cases hw : v.toNat < 2 ^ win i
    · exact .result h hw (fun c => hi c.1) (f v) ((hl h).trans (checked_of_fits f hw)) (hf h)
    · exact .tooWide h (Nat.le_of_not_lt hw) ((hl h).trans (checked_of_not_fits f hw))
  · exact .badIndex h (hn h)

/-- As `of_checked`, for an operation that takes no index. -/
theorem Responds.of_unindexed {i : Instr} {v : Word} (f : Word → Word) (hi : i ≠ .einv) (h : IndexLegal i)
    (e : respond i v = checked (win i) v f) (hf : (f v).toNat < 2 ^ wout i) : Responds i v :=
  .of_checked f hi (fun _ => e) (fun c => absurd h c) (fun _ => hf)

/-- Every response is one of the four. -/
theorem responds (i : Instr) (v : Word) : Responds i v := by
  have select (T : List Nat) (w : Nat) (hT : T.length ≤ 64) := (selects_permute T w v hT).1
  cases i with
  | ip => exact .of_unindexed (permute Tables.ip 64) (by decide) rfl rfl (BitVec.isLt _)
  | fp => exact .of_unindexed (permute Tables.fp 64) (by decide) rfl rfl (BitVec.isLt _)
  | e => exact .of_unindexed (permute Tables.e 32) (by decide) rfl rfl (select _ _ (by decide))
  | p => exact .of_unindexed (permute Tables.p 32) (by decide) rfl rfl (select _ _ (by decide))
  | pc1 => exact .of_unindexed (permute Tables.pc1 64) (by decide) rfl rfl (select _ _ (by decide))
  | pc2 => exact .of_unindexed (permute Tables.pc2 56) (by decide) rfl rfl (select _ _ (by decide))
  | ipinv => exact .of_unindexed (permute Tables.fp 64) (by decide) rfl rfl (BitVec.isLt _)
  | fpinv => exact .of_unindexed (permute Tables.ip 64) (by decide) rfl rfl (BitVec.isLt _)
  | pinv =>
    exact .of_unindexed (scatter Tables.p 32) (by decide) rfl rfl
      (scatters_scatter _ _ v (by decide) p_positions.1 p_positions.2).1
  | pc1inv => exact .of_unindexed pc1invFn (by decide) rfl rfl (BitVec.isLt _)
  | pc2inv =>
    exact .of_unindexed (scatter Tables.pc2 56) (by decide) rfl rfl
      (scatters_scatter _ _ v (by decide) pc2_positions.1 pc2_positions.2).1
  | parity => exact .of_unindexed parityFn (by decide) rfl rfl (BitVec.isLt _)
  | ls => exact .of_unindexed lsFn (by decide) rfl rfl (lsFn_lt v)
  | rs => exact .of_unindexed rsFn (by decide) rfl rfl (rsFn_lt v)
  | sboxes => exact .of_unindexed sboxesFn (by decide) rfl rfl (sboxesFn_lt v)
  | sbox n =>
    refine .of_checked (sboxFn n) (by simp) (fun h => ?_) (fun h => ?_) (fun _ => sboxFn_lt n v)
    · have h' : 1 ≤ n ∧ n ≤ 8 := by simpa [IndexLegal, indexLegal] using h
      simp [respond, respSbox, h', win]
    · have h' : ¬ (1 ≤ n ∧ n ≤ 8) := by simpa [IndexLegal, indexLegal] using h
      simp only [respond, respSbox, sboxIndexLegal_iff, h', if_false]
  | rsched r =>
    refine .of_checked (fun _ => zext64 (Tables.entry Tables.shift r)) (by simp) (fun h => ?_) (fun h => ?_)
      (fun h => ?_)
    · have h' : 1 ≤ r ∧ r ≤ 16 := by simpa [IndexLegal, indexLegal] using h
      simp [respond, respRsched, h', win]
    · have h' : ¬ (1 ≤ r ∧ r ≤ 16) := by simpa [IndexLegal, indexLegal] using h
      simp only [respond, respRsched, roundLegal_iff, h', if_false]
    · obtain ⟨h1, h2⟩ : 1 ≤ r ∧ r ≤ 16 := by simpa [IndexLegal, indexLegal] using h
      interval_cases r <;> decide
  | einv =>
    by_cases hw : v.toNat < 2 ^ 48
    · by_cases hc : CopiesConflict v
      · refine .ambiguous rfl hw hc ?_
        simp only [respond, respEinv, fitsWidth_iff, hw, (ambiguous_iff v).mpr hc, if_true]
      · have ha : Machine.ambiguous v = false := by rw [Bool.eq_false_iff, Ne, ambiguous_iff]; exact hc
        refine .result rfl hw (fun h => hc h.2) (einvFn v) ?_ (einvFn_lt v)
        simp only [respond, respEinv, fitsWidth_iff, hw, ha, if_true, Bool.false_eq_true, if_false]
    · refine .tooWide rfl (Nat.le_of_not_lt hw) ?_
      simp only [respond, respEinv, fitsWidth_iff, hw, if_false]

end Sys2Proof.Machine
end

