-- ==== Sys2Proof/Laws/Parity.lean ====
section
/-! SUPPORT. The parity recomputation bit by bit (spec/41_inverses.md R136). -/

namespace Sys2Proof.Machine

theorem oddParityBit_getLsbD (v : Word) (k j : Nat) :
    (oddParityBit v k).getLsbD j =
      (decide (j = 0) && decide (popcount (slice v (71 - 8 * k) (65 - 8 * k)) % 2 = 0)) := by
  unfold oddParityBit
  split <;> simp_all [BitVec.getLsbD_one]

theorem setParityBit_getLsbD (y : Word) (k : Nat) (p : Word) (i : Nat) (hp : ∀ j, j ≠ 0 → p.getLsbD j = false)
    (hi : i < 64) :
    (setParityBit y k p).getLsbD i = if i = 64 - 8 * k then p.getLsbD 0 else y.getLsbD i := by
  simp only [setParityBit, BitVec.getLsbD_or, BitVec.getLsbD_and, BitVec.getLsbD_not, BitVec.getLsbD_shiftLeft]
  rcases Nat.lt_trichotomy i (64 - 8 * k) with h | h | h
  · simp [hi, h, show i ≠ 64 - 8 * k by omega]
  · subst h
    simp
    omega
  · rw [hp (i - (64 - 8 * k)) (by omega)]
    simp [hi, BitVec.getLsbD_one, show i - (64 - 8 * k) ≠ 0 by omega, show i ≠ 64 - 8 * k by omega]

/-- R136: bit `i` of the recomputed word: a data bit is kept, a parity bit makes its byte odd. -/
theorem parityFn_getLsbD (v : Word) (i : Nat) (hi : i < 64) :
    (parityFn v).getLsbD i =
      if i % 8 = 0 then decide (popcount (slice v (i + 7) (i + 1)) % 2 = 0) else v.getLsbD i := by
  have hp : ∀ k j, j ≠ 0 → (oddParityBit v k).getLsbD j = false := by
    intro k j hj; simp [oddParityBit_getLsbD, hj]
  unfold parityFn
  simp only [List.range', List.foldl_cons, List.foldl_nil]
  simp only [setParityBit_getLsbD _ _ _ _ (hp _) hi, oddParityBit_getLsbD]
  by_cases h : i % 8 = 0
  · obtain ⟨m, rfl⟩ : ∃ m, i = 8 * m := ⟨i / 8, by omega⟩
    have : m < 8 := by omega
    interval_cases m <;> simp
  · simp only [h, if_false]
    repeat' split
    all_goals first | omega | rfl

theorem popcountLow_succ_front (v : Word) (n : Nat) :
    popcountLow v (n + 1) = (v.getLsbD 0).toNat + popcountLow (v >>> 1) n := by
  induction n with
  | zero => simp [popcountLow]
  | succ n ih =>
    rw [popcountLow, ih, popcountLow, BitVec.getLsbD_ushiftRight, show 1 + n = n + 1 by omega]
    omega

/-- The parity bit makes the count odd (R13). -/
theorem odd_with_parity_bit (n : Nat) : ((decide (n % 2 = 0)).toNat + n) % 2 = 1 := by
  by_cases h : n % 2 = 0
  · simp [h]; omega
  · simp [h]; omega

/-- R136: every byte of the recomputed word is odd, and its data bits are the operand's. -/
theorem oddParityOf_parityFn (v : Word) : OddParityOf v (parityFn v) := by
  intro k h1 h2
  have hdata : ∀ j, j < 7 → (parityFn v).getLsbD (65 - 8 * k + j) = v.getLsbD (65 - 8 * k + j) := by
    intro j hj
    rw [parityFn_getLsbD _ _ (by omega), if_neg (by omega)]
  have hpar : (parityFn v).getLsbD (64 - 8 * k) =
      decide (popcountLow (v >>> (65 - 8 * k)) 7 % 2 = 0) := by
    rw [parityFn_getLsbD _ _ (by omega), if_pos (by omega), popcount_slice _ _ _ (by omega),
      show 64 - 8 * k + 1 = 65 - 8 * k by omega, show 64 - 8 * k + 7 - (65 - 8 * k) + 1 = 7 by omega]
  constructor
  · rw [byteOf, popcount_slice _ _ _ (by omega), show 71 - 8 * k - (64 - 8 * k) + 1 = 7 + 1 by omega,
      popcountLow_succ_front, BitVec.getLsbD_ushiftRight, Nat.add_zero, hpar,
      popcountLow_congr ((parityFn v >>> (64 - 8 * k)) >>> 1) (v >>> (65 - 8 * k)) 7]
    · exact odd_with_parity_bit _
    · intro j hj
      simp only [BitVec.getLsbD_ushiftRight]
      rw [← hdata j hj, show 64 - 8 * k + (1 + j) = 65 - 8 * k + j by omega]
  · apply BitVec.eq_of_getLsbD_eq
    intro j _
    rw [slice_getLsbD _ _ _ _ (by omega), slice_getLsbD _ _ _ _ (by omega)]
    by_cases hj : j ≤ 71 - 8 * k - (65 - 8 * k)
    · rw [hdata j (by omega)]
    · simp [hj]

end Sys2Proof.Machine
end

