-- ==== Sys2Proof/Laws/PerInstr.lean ====
section
/-! SUPPORT. Families of statements about every operation as syntax, one lemma per constructor. -/

namespace Sys2Proof.Laws

/-- The assembled word of a well-formed operation carries its code in `cmd[7:0]` and its index in `cmd[15:8]`
(spec/30_encoding.md R72, R77, R83). -/
def Fields.Statement (i : Instr) : Prop :=
  i.WellFormed → opField (encode i) = i.opcode ∧ idxField (encode i) = i.index

/-- The proof every constructor's lemma cites. -/
theorem fields_of (i : Instr) : Fields.Statement i := by
  intro h
  have h1 := opcode_lt i
  rw [opField_eq, idxField_eq, encode_toNat h]
  omega

theorem Fields.ip : Fields.Statement .ip := fields_of _
theorem Fields.fp : Fields.Statement .fp := fields_of _
theorem Fields.e : Fields.Statement .e := fields_of _
theorem Fields.p : Fields.Statement .p := fields_of _
theorem Fields.pc1 : Fields.Statement .pc1 := fields_of _
theorem Fields.pc2 : Fields.Statement .pc2 := fields_of _
theorem Fields.ipinv : Fields.Statement .ipinv := fields_of _
theorem Fields.fpinv : Fields.Statement .fpinv := fields_of _
theorem Fields.einv : Fields.Statement .einv := fields_of _
theorem Fields.pinv : Fields.Statement .pinv := fields_of _
theorem Fields.pc1inv : Fields.Statement .pc1inv := fields_of _
theorem Fields.pc2inv : Fields.Statement .pc2inv := fields_of _
theorem Fields.parity : Fields.Statement .parity := fields_of _
theorem Fields.ls : Fields.Statement .ls := fields_of _
theorem Fields.rs : Fields.Statement .rs := fields_of _
theorem Fields.rsched (r : Nat) : Fields.Statement (.rsched r) := fields_of _
theorem Fields.sbox (n : Nat) : Fields.Statement (.sbox n) := fields_of _
theorem Fields.sboxes : Fields.Statement .sboxes := fields_of _

end Sys2Proof.Laws
end

