-- ==== Sys2Proof/Laws/Service.lean ====
section
/-! SUPPORT. What choosing the next request can do, and what a step can do, each said once
(spec/60_exceptions.md R214, spec/70_reset_and_hazards.md R230, R236). -/

namespace Sys2Proof.Machine

/-- The turn is always some outstanding requester's. -/
theorem turn_mem (k : Nat) (q : Request) (qs : List Request) : ∃ r ∈ q :: qs, r.requester = turn k q qs := by
  induction qs generalizing k q with
  | nil => exact ⟨q, by simp, rfl⟩
  | cons q' qs ih =>
    cases k with
    | zero => exact ⟨q, by simp, rfl⟩
    | succ k =>
      obtain ⟨r, hr, h⟩ := ih k q'
      exact ⟨r, List.mem_cons_of_mem _ hr, h⟩

/-- So is the one that is served. -/
theorem dueRequester_mem (k patience waited : Nat) (q : Request) (qs : List Request) :
    ∃ r ∈ q :: qs, r.requester = dueRequester k patience waited q qs := by
  unfold dueRequester
  split
  · exact ⟨q, by simp, rfl⟩
  · split
    · exact ⟨q, by simp, rfl⟩
    · exact turn_mem k q _

/-- R236: what `oldestOf` takes is the oldest request of its requester, and every other request stays in its place. -/
theorem oldestOf_eq_some {h : Nat} {qs : List Request} {q : Request} {rest : List Request} :
    oldestOf h qs = some (q, rest) →
      q.requester = h ∧ ∃ before after, qs = before ++ q :: after ∧ rest = before ++ after ∧
        ∀ r ∈ before, r.requester ≠ h := by
  induction qs generalizing q rest with
  | nil => simp [oldestOf]
  | cons p ps ih =>
    unfold oldestOf
    split
    · rename_i hp
      rintro ⟨⟩
      exact ⟨hp, [], _, rfl, rfl, by simp⟩
    · rename_i hp
      cases hrec : oldestOf h ps with
      | none => simp
      | some pr =>
        obtain ⟨q', rest'⟩ := pr
        rintro ⟨⟩
        obtain ⟨h1, before, after, h2, h3, h4⟩ := ih hrec
        refine ⟨h1, p :: before, after, by simp [h2], by simp [h3], ?_⟩
        intro r hr
        rcases List.mem_cons.mp hr with rfl | hr
        · exact hp
        · exact h4 r hr

theorem oldestOf_isSome {h : Nat} {qs : List Request} (hm : ∃ q ∈ qs, q.requester = h) :
    ∃ q rest, oldestOf h qs = some (q, rest) := by
  induction qs with
  | nil => simp at hm
  | cons p ps ih =>
    unfold oldestOf
    split
    · exact ⟨_, _, rfl⟩
    · rename_i hp
      obtain ⟨q, hq, hr⟩ := hm
      rcases List.mem_cons.mp hq with rfl | hq
      · exact absurd hr hp
      · obtain ⟨q', rest', h'⟩ := ih ⟨q, hq, hr⟩
        exact ⟨q', p :: rest', by simp [h']⟩

/-- Nothing is served exactly when nothing is outstanding. -/
theorem nextRequest_eq_none_iff (s : State) : s.nextRequest = none ↔ s.outstanding = [] := by
  unfold State.nextRequest
  cases s.outstanding with
  | nil => simp
  | cons q qs =>
    obtain ⟨q', rest, h⟩ := oldestOf_isSome (dueRequester_mem (Config.serviceOrder s.draw)
      (Config.patience (s.draw - s.waited)) s.waited q qs)
    simp [h]

/-- What is served is the oldest outstanding request of its requester; the others stay, in their order. -/
theorem nextRequest_eq_some {s : State} {q : Request} {rest : List Request} (h : s.nextRequest = some (q, rest)) :
    ∃ before after, s.outstanding = before ++ q :: after ∧ rest = before ++ after ∧
      ∀ r ∈ before, r.requester ≠ q.requester := by
  unfold State.nextRequest at h
  cases hs : s.outstanding with
  | nil => simp [hs] at h
  | cons p ps =>
    rw [hs] at h
    obtain ⟨h1, h2⟩ := oldestOf_eq_some h
    rw [h1]
    exact h2

/-- A lone request is served, whatever the free choice. -/
theorem nextRequest_single (s : State) (q : Request) (h : s.outstanding = [q]) : s.nextRequest = some (q, []) := by
  simp [State.nextRequest, h, oldestOf, dueRequester]

/-- U2: once the oldest outstanding request has waited for its patience, it is the one served. -/
theorem nextRequest_of_patience_le {s : State} {p : Request} {ps : List Request} (h : s.outstanding = p :: ps)
    (hw : Config.patience (s.draw - s.waited) ≤ s.waited) : s.nextRequest = some (p, ps) := by
  cases ps <;> simp [State.nextRequest, h, oldestOf, dueRequester, hw]

/-- The oldest outstanding request either is the one served, and nothing has waited since, or has waited for one response
more. -/
theorem nextRequest_oldest {s : State} {p q : Request} {ps rest : List Request} (h : s.outstanding = p :: ps)
    (hn : s.nextRequest = some (q, rest)) :
    (q = p ∧ rest = ps ∧ s.waitedAfter q = 0) ∨
      (∃ before after, ps = before ++ q :: after ∧ rest = p :: (before ++ after) ∧
        (∀ r ∈ p :: before, r.requester ≠ q.requester) ∧ s.waitedAfter q = s.waited + 1) := by
  obtain ⟨before, after, h1, h2, h3⟩ := nextRequest_eq_some hn
  rw [h] at h1
  cases before with
  | nil =>
    obtain ⟨rfl, rfl⟩ := List.cons.inj h1
    exact .inl ⟨rfl, h2, by simp [State.waitedAfter, h]⟩
  | cons b before =>
    obtain ⟨rfl, rfl⟩ := List.cons.inj h1
    refine .inr ⟨before, after, rfl, h2, h3, ?_⟩
    simp [State.waitedAfter, h, h3 p]

/-- The response a step delivers to a command word and an operand: the operation's, or ILLEGAL_COMMAND. -/
def answerTo (cmd : CmdWord) (opnd : Word) : Response :=
  match decode cmd with
  | .ok i => respond i opnd
  | .error _ => .err .illegalCommand

/-- Everything a step can do: lose the outstanding requests under reset, idle, or answer one request. -/
theorem step_cases (s : State) :
    (s.resetAsserted = true ∧ step s = .next s.dropAll) ∨
    (s.resetAsserted = false ∧ s.nextRequest = none ∧ step s = .next s.idle) ∨
    (s.resetAsserted = false ∧ ∃ q rest, s.nextRequest = some (q, rest) ∧
      step s = .next ((s.serve q rest).deliver (answerTo q.cmd q.opnd))) := by
  unfold step
  cases hr : s.resetAsserted with
  | true => simp
  | false =>
    cases hn : s.nextRequest with
    | none => simp
    | some pr =>
      obtain ⟨q, rest⟩ := pr
      refine .inr (.inr ⟨rfl, q, rest, rfl, ?_⟩)
      simp only [Bool.false_eq_true, if_false, answerTo]
      cases hd : decode q.cmd with
      | ok i => simp [exec_eq]
      | error why => simp

end Sys2Proof.Machine
end

