-- ==== Sys2Proof/Laws/Program.lean ====
section
/-! SUPPORT. What the host's own operations can do, each said once (spec/30_encoding.md R83 to R85): how a run goes on, and
what issuing one request does. -/

namespace Sys2Proof.Machine

@[simp] theorem HostRun.andThen_finished (σ : HostState) (f : HostState → HostRun) :
    HostRun.andThen (.finished, σ) f = f σ := rfl

/-- A run that has stopped does not go on. -/
theorem HostRun.andThen_of_ne {r : HostRun} (f : HostState → HostRun) (h : r.1 ≠ .finished) : r.andThen f = r := by
  unfold HostRun.andThen
  split
  · contradiction
  all_goals rfl

@[simp] theorem HostState.set_lines (σ : HostState) (x : String) (i v : Nat) : (σ.set x i v).lines = σ.lines := rfl
@[simp] theorem HostState.set_last (σ : HostState) (x : String) (i v : Nat) : (σ.set x i v).last = σ.last := rfl
@[simp] theorem HostState.set_responses (σ : HostState) (x : String) (i v : Nat) :
    (σ.set x i v).responses = σ.responses := rfl
@[simp] theorem HostState.set_block (σ : HostState) (x : String) (i v : Nat) : (σ.set x i v).block = σ.block := rfl
@[simp] theorem HostState.endLine_lines (σ : HostState) : σ.endLine.lines = σ.lines ++ [σ.last] := rfl
@[simp] theorem HostState.endLine_vars (σ : HostState) : σ.endLine.vars = σ.vars := rfl
@[simp] theorem HostState.endLine_last (σ : HostState) : σ.endLine.last = none := rfl
@[simp] theorem HostState.endLine_responses (σ : HostState) : σ.endLine.responses = σ.responses := rfl
@[simp] theorem HostState.endLine_block (σ : HostState) : σ.endLine.block = σ.block := rfl

@[simp] theorem HostState.get_set_self (σ : HostState) (x : String) (i v : Nat) : (σ.set x i v).get x i = some v := by
  simp [HostState.get, HostState.set]

theorem HostState.get_set_of_ne (σ : HostState) {x y : String} {i j : Nat} (v : Nat) (h : x ≠ y ∨ i ≠ j) :
    (σ.set x i v).get y j = σ.get y j := by
  have : (x == y && i == j) = false := by
    rcases h with h | h <;> simp [h]
  simp [HostState.get, HostState.set, this]

/-- What issuing a command word does on a block that is out of reset and serves nobody else: the block answers it, and the
host keeps the response. -/
theorem HostState.issueWord_eq (h : Nat) (cmd : CmdWord) (v : Word) (σ : HostState)
    (hr : σ.block.resetAsserted = false) (ho : σ.block.outstanding = []) :
    σ.issueWord h cmd v.toNat = (.finished, { σ with
      last := some (answerTo cmd v)
      responses := σ.responses ++ [answerTo cmd v]
      block := ((σ.block.issue ⟨h, cmd, v⟩).serve ⟨h, cmd, v⟩ []).deliver (answerTo cmd v) }) := by
  have hn : (σ.block.issue ⟨h, cmd, v⟩).nextRequest = some (⟨h, cmd, v⟩, []) :=
    nextRequest_single _ _ (by rw [State.issue_outstanding _ _ hr, ho]; rfl)
  rw [HostState.issueWord, if_pos v.isLt, BitVec.ofNat_toNat, BitVec.setWidth_eq]
  rcases step_cases (σ.block.issue ⟨h, cmd, v⟩) with ⟨h1, -⟩ | ⟨-, h1, -⟩ | ⟨-, q, rest, h1, h2⟩
  · simp [hr] at h1
  · simp [hn] at h1
  · rw [hn] at h1
    cases h1
    rw [h2]
    rfl

/-- An index wider than the field is not issued. -/
theorem HostState.issueInstr_of_ill_formed {i : Instr} (h v : Nat) (σ : HostState) (hi : ¬ i.WellFormed) :
    σ.issueInstr h i v = (.notAssembled, σ) := if_neg hi

theorem HostState.issueInstr_of_wellFormed {i : Instr} (h v : Nat) (σ : HostState) (hi : i.WellFormed) :
    σ.issueInstr h i v = σ.issueWord h (encode i) v := if_pos hi

end Sys2Proof.Machine
end

