-- ==== Sys2Proof/Tests/Slice0.lean ====
section
/-! SUPPORT. Tests: expected words and values are the spec's (spec/30_encoding.md R77, spec/95_test_vectors.md section 2),
and one witness for the hypotheses of every statement that has any. -/

open Sys2Proof Sys2Proof.Machine

namespace Sys2Proof.Tests

/-- The state after reset with `v` on the operand port. -/
def withOpnd (v : Word) : State := { State.reset with opnd := v }

/-- The response of one operation to one operand. -/
def responseTo (i : Instr) (v : Word) : Option Response :=
  match exec i (withOpnd v) with
  | .next t => t.response
  | .fault _ | .refused _ => none

/-- The response of one step after reset to one request. -/
def stepResponse (cmd : CmdWord) (v : Word) : Option Response :=
  match step (State.reset.issue ⟨1, cmd, v⟩) with
  | .next t => t.response
  | .fault _ | .refused _ => none

/-! ## WellFormed: the one check, the index field's eight bits (R72) -/

theorem test_sbox_index_of_nine_bits_is_ill_formed : ¬ (Instr.sbox 256).WellFormed := by decide
theorem test_rsched_index_of_nine_bits_is_ill_formed : ¬ (Instr.rsched 256).WellFormed := by decide
theorem test_sbox_255_is_well_formed : (Instr.sbox 255).WellFormed := by decide

/-! ## Decode: each word written out, idx then op (R72, R77) -/

theorem test_decode_ip : decode 0b00000000_00000001#16 = .ok .ip := rfl
theorem test_decode_fp : decode 0b00000000_00000010#16 = .ok .fp := rfl
theorem test_decode_e : decode 0b00000000_00000011#16 = .ok .e := rfl
theorem test_decode_p : decode 0b00000000_00000100#16 = .ok .p := rfl
theorem test_decode_pc1 : decode 0b00000000_00000101#16 = .ok .pc1 := rfl
theorem test_decode_pc2 : decode 0b00000000_00000110#16 = .ok .pc2 := rfl
theorem test_decode_ipinv : decode 0b00000000_00010001#16 = .ok .ipinv := rfl
theorem test_decode_fpinv : decode 0b00000000_00010010#16 = .ok .fpinv := rfl
theorem test_decode_einv : decode 0b00000000_00010011#16 = .ok .einv := rfl
theorem test_decode_pinv : decode 0b00000000_00010100#16 = .ok .pinv := rfl
theorem test_decode_pc1inv : decode 0b00000000_00010101#16 = .ok .pc1inv := rfl
theorem test_decode_pc2inv : decode 0b00000000_00010110#16 = .ok .pc2inv := rfl
theorem test_decode_parity : decode 0b00000000_00010111#16 = .ok .parity := rfl
theorem test_decode_ls : decode 0b00000000_00100000#16 = .ok .ls := rfl
theorem test_decode_rs : decode 0b00000000_00100001#16 = .ok .rs := rfl
theorem test_decode_sboxes : decode 0b00000000_00110001#16 = .ok .sboxes := rfl
theorem test_decode_rsched_3 : decode 0b00000011_00100010#16 = .ok (.rsched 3) := rfl
theorem test_decode_sbox_5 : decode 0b00000101_00110000#16 = .ok (.sbox 5) := rfl
theorem test_decode_unassigned : decode 0x0107 = .error (.unassignedOp 7) := rfl
theorem test_decode_idx_on_parity : decode 0x0817 = .error (.nonzeroIdx 0x17 8) := rfl
theorem test_table_word_sbox_0 : decodeTableWord 16 0x0030 = some (.sbox 0) := by decide
theorem test_table_word_illegal : decodeTableWord 16 0x0000 = none := by decide

/-! ## Operations: one vector each (spec/95_test_vectors.md section 2) -/

/-- Section 2.1. -/
theorem test_ip : responseTo (.ip) 0x133457799BBCDFF1 = some (.ok 0xCCFF66DDF0AA7855) := by decide
/-- Section 2.1. -/
theorem test_fp : responseTo (.fp) 0x0123456789ABCDEF = some (.ok 0xFF330FAA00330FAA) := by decide
/-- Section 2.1. -/
theorem test_e : responseTo (.e) 0x5C82B597 = some (.ok 0xAF94055ABCAE) := by decide
/-- Section 2.1. -/
theorem test_p : responseTo (.p) 0xF0AAF0AA = some (.ok 0x29C687C7) := by decide
/-- Section 2.1. -/
theorem test_pc1 : responseTo (.pc1) 0x0123456789ABCDEF = some (.ok 0xF0CCAA0AACCF00) := by decide
/-- Section 2.1. -/
theorem test_pc2 : responseTo (.pc2) 0x80000008000001 = some (.ok 0x080000000102) := by decide
/-- Section 2.2. -/
theorem test_ipinv : responseTo (.ipinv) 0x8000000000000001 = some (.ok 0x0200000000000040) := by decide
/-- Section 2.2. -/
theorem test_fpinv : responseTo (.fpinv) 0x133457799BBCDFF1 = some (.ok 0xCCFF66DDF0AA7855) := by decide
/-- Section 2.2. -/
theorem test_einv : responseTo (.einv) 0x7A15557A1555 = some (.ok 0xF0AAF0AA) := by decide
/-- Section 2.2. -/
theorem test_pinv : responseTo (.pinv) 0xF0AAF0AA = some (.ok 0xDB053F06) := by decide
/-- Section 2.2. -/
theorem test_pc1inv : responseTo (.pc1inv) 0x80000008000001 = some (.ok 0x1001010101010183) := by decide
/-- Section 2.2. -/
theorem test_pc2inv : responseTo (.pc2inv) 0x6117BA866527 = some (.ok 0x1279A07D908C83) := by decide
/-- Section 2.2. -/
theorem test_parity : responseTo (.parity) 0x8000000000000001 = some (.ok 0x8001010101010101) := by decide
/-- Section 2.3. -/
theorem test_ls : responseTo (.ls) 0x80000008000001 = some (.ok 0x00000010000003) := by decide
/-- Section 2.3. -/
theorem test_rs : responseTo (.rs) 0x80000008000001 = some (.ok 0x4000000C000000) := by decide
/-- Section 2.3. -/
theorem test_rsched : responseTo (.rsched 9) 0x0 = some (.ok 0x0) := by decide
/-- Section 2.4. -/
theorem test_sbox : responseTo (.sbox 8) 0x27 = some (.ok 0x7) := by decide
/-- Section 2.4. -/
theorem test_sboxes : responseTo (.sboxes) 0x7A15557A1555 = some (.ok 0x7D529456) := by decide

/-! ## Errors and their priority (spec/95_test_vectors.md sections 2.2 to 2.5) -/

theorem test_einv_width_before_ambiguity :
    responseTo .einv 0x1000000000000 = some (.err .invalidWidthRange) := by decide
theorem test_einv_ambiguous : responseTo .einv 0x800000000001 = some (.err .ambiguousInput) := by decide
theorem test_rsched_operand_must_be_0 : responseTo (.rsched 3) 1 = some (.err .invalidWidthRange) := by decide
theorem test_rsched_17 : responseTo (.rsched 17) 0 = some (.err .invalidWidthRange) := by decide
theorem test_sbox_255 : responseTo (.sbox 255) 0 = some (.err .invalidWidthRange) := by decide
theorem test_sbox_operand_64 : responseTo (.sbox 1) 0x40 = some (.err .invalidWidthRange) := by decide
theorem test_idx_beats_width : stepResponse 0x0103 0x100000000 = some (.err .illegalCommand) := by decide
theorem test_step_width : stepResponse 0x0003 0x100000000 = some (.err .invalidWidthRange) := by decide
theorem test_step_rsched : stepResponse 0x0F22 0 = some (.ok 1) := by decide

/-! ## The interface -/

theorem test_reset_accepts_nothing : (State.reset.assertReset.issue ⟨0, 1, 0⟩).outstanding = [] := by decide
theorem test_status_port_of_error :
    (match step (State.reset.issue ⟨1, 0x0000, 0⟩) with
      | .next t => t.statusPort
      | .fault _ | .refused _ => none) = some 3 := by decide
theorem test_fetch_word_runs :
    step (State.reset.withFetchWord 16 0x0530) = exec (.sbox 5) (State.reset.serve ⟨0, 0x0530, 0⟩ []) := rfl
theorem test_serialise : serialise 0x0123456789ABCDEF = [0x01, 0x23, 0x45, 0x67, 0x89, 0xAB, 0xCD, 0xEF] := by decide

/-- Whatever the free values, the first of one requester's two requests is served first (R236). -/
theorem test_one_requester_in_order (a b : Request) (h : a.requester = b.requester) :
    (State.nextRequest { State.reset with outstanding := [a, b] }) = some (a, [b]) := by
  obtain ⟨q, rest, hn⟩ : ∃ q rest, State.nextRequest { State.reset with outstanding := [a, b] } = some (q, rest) := by
    cases hn : State.nextRequest { State.reset with outstanding := [a, b] } with
    | none => cases (nextRequest_eq_none_iff _).mp hn
    | some pr => exact ⟨pr.1, pr.2, rfl⟩
  rcases nextRequest_oldest rfl hn with ⟨rfl, rfl, -⟩ | ⟨before, after, h1, -, h2, -⟩
  · exact hn
  · obtain ⟨rfl, rfl, rfl⟩ : before = [] ∧ after = [] ∧ q = b := by
      cases before <;> simp_all
    exact absurd h (h2 a (by simp))

/-! ## Program notation (R83 to R85) -/

/-- A `host:` line takes a number, and RS2 two. -/
theorem test_lines_are_numbered : expand [.request .ip (.lit 1), .host .skip, .rs2 (.lit 5)] =
    [.request .ip (.lit 1), .host .skip, .request .rs (.lit 5), .request .rs (.result 3)] := by decide
/-- Line 4 of spec/95_test_vectors.md L3-3, a `host:` line, and what line 5 then reads. -/
theorem test_host_xor :
    let σ : HostState :=
      ⟨[none, none, some (.ok 0x7A15557A1555)], [], none, [], State.reset⟩
    (runHostCode 1 (.assign "t" (.opnd (.lit 0)) (.xor (.opnd (.result 3)) (.opnd (.lit 0x1B02EFFC7072)))) σ).2.operand
      (.var "t") = some 0x6117BA866527 := by decide
theorem test_failed_result_is_not_used :
    HostState.operand ⟨[some (.err .ambiguousInput)], [], none, [], State.reset⟩ (.result 1) = none := by decide
/-- The other policy R207 leaves to the host: to end the program on an error. -/
theorem test_host_may_stop_on_an_error :
    (runHostCode 1 (.ifEq (.status 1) (.opnd (.lit 0)) .skip .stop)
      ⟨[some (.err .ambiguousInput)], [], none, [], State.reset⟩).1 = .stoppedByHost := by decide
theorem test_sbox_257_is_not_assembled :
    (runProgram 1 [.request (.sbox 257) (.lit 0)] State.reset).1 = .notAssembled := by decide
theorem test_request_text : requestText (.rsched 3) (.lit 0) = "RSCHED 3" := by decide
/-- The form of spec/43_sbox.md R181 for an index out of range. -/
theorem test_request_text_of_sbox_0 : requestText (.sbox 0) (.result 1) = "SBOX 0, %1" := by decide

/-! ## Witnesses: the hypotheses of each statement are met by a concrete input, clause by clause -/

/-- One request outstanding: the step's case of most statements. -/
def asked (cmd : CmdWord) (v : Word) : State := State.reset.issue ⟨1, cmd, v⟩

theorem asked_meets (cmd : CmdWord) (v : Word) :
    (asked cmd v).resetAsserted = false ∧ (asked cmd v).nextRequest = some (⟨1, cmd, v⟩, []) :=
  ⟨rfl, nextRequest_single _ _ rfl⟩

theorem conflict_of_one : CopiesConflict 1 :=
  ⟨2, 48, by decide, by decide, by decide, by decide, by decide, by decide⟩

theorem no_conflict_of_zero : ¬ CopiesConflict 0 := by
  rintro ⟨i, j, -, -, -, -, -, h⟩
  exact h (by rw [pos_eq_pos_iff]; simp)

theorem witness_DecodeOfEncodeIsTheOperation :
    (Instr.sbox 255).WellFormed ∧ (Instr.rsched 0).WellFormed ∧ Instr.ip.WellFormed := by decide

theorem witness_EncodeOfDecodeIsTheWord : decode 0xFF30 = .ok (.sbox 255) := rfl

theorem witness_CommandWordCounts :
    (0 < 256 ∧ 255 < 256) ∧ IndexLegal (.sbox 8) ∧ ¬ IndexLegal (.sbox 9) := by decide

theorem witness_UnassignedOpIsIllegal :
    (asked 0x0107 5).resetAsserted = false ∧ (asked 0x0107 5).nextRequest = some (⟨1, 0x0107, 5⟩, []) ∧
      opField 0x0107 ∉ assignedOps := ⟨rfl, (asked_meets _ _).2, by decide⟩

theorem witness_IndexOnUnindexedOpIsIllegal :
    (asked 0x0101 0).resetAsserted = false ∧ (asked 0x0101 0).nextRequest = some (⟨1, 0x0101, 0⟩, []) ∧
      opField 0x0101 ∈ assignedOps ∧ opField 0x0101 ≠ 0x22 ∧ opField 0x0101 ≠ 0x30 ∧ idxField 0x0101 ≠ 0 :=
  ⟨rfl, (asked_meets _ _).2, by decide⟩

theorem witness_StepRunsTheDecodedRequest :
    ((asked 0x0830 63).nextRequest = some (⟨1, 0x0830, 63⟩, []) ∧ decode 0x0830 = .ok (.sbox 8)) ∧
      ((asked 0 0).nextRequest = some (⟨1, 0, 0⟩, []) ∧ decode 0 = .error (.unassignedOp 0)) ∧
      (State.reset.resetAsserted = false ∧ State.reset.outstanding = []) ∧
      State.reset.assertReset.resetAsserted = true :=
  ⟨⟨(asked_meets _ _).2, rfl⟩, ⟨(asked_meets _ _).2, rfl⟩, ⟨rfl, rfl⟩, rfl⟩

theorem witness_StepAnswersDecodeAndRun :
    (asked 0x0013 1).resetAsserted = false ∧ (asked 0x0013 1).nextRequest = some (⟨1, 0x0013, 1⟩, []) :=
  asked_meets _ _

/-- One request for each clause: code 3 twice, 1 for the index, 1 for the width, 2, and 0 at the widest operand. -/
theorem witness_StatusFollowsThePriority :
    (∀ cmd v, (asked cmd v).nextRequest = some (⟨1, cmd, v⟩, [])) ∧
      opField 0x00FF ∉ assignedOps ∧ (opField 0x0131 ∉ [0x22, 0x30] ∧ idxField 0x0131 ≠ 0) ∧
      ¬ IndexLegal (.rsched 17) ∧ (IndexLegal .e ∧ 2 ^ win .e ≤ (0x100000000 : Word).toNat) ∧
      ((1 : Word).toNat < 2 ^ win .einv ∧ CopiesConflict 1) ∧
      (IndexLegal .e ∧ (0xFFFFFFFF : Word).toNat < 2 ^ win .e ∧ ¬ (Instr.e = .einv ∧ CopiesConflict 0xFFFFFFFF)) :=
  ⟨fun _ _ => (asked_meets _ _).2, by decide, by decide, by decide, by decide, ⟨by decide, conflict_of_one⟩,
    by decide, by decide, fun h => absurd h.1 (by decide)⟩

theorem witness_ResponseDependsOnTheRequestAlone :
    let s' : State := { asked 0x0001 7 with response := some (.err .illegalCommand), draw := 9, opnd := 3 }
    (asked 0x0001 7).resetAsserted = false ∧ s'.resetAsserted = false ∧
      (asked 0x0001 7).nextRequest = some (⟨1, 0x0001, 7⟩, []) ∧ s'.nextRequest = some (⟨1, 0x0001, 7⟩, []) :=
  ⟨rfl, rfl, (asked_meets _ _).2, nextRequest_single _ _ rfl⟩

theorem witness_OperationFrame : exec .ip State.reset = .next (State.reset.deliver (.ok 0)) := by
  rw [exec_eq_iff]; decide

theorem witness_EveryOperationCompletes :
    (IndexLegal (.sbox 1) ∧ (withOpnd 63).opnd.toNat < 2 ^ win (.sbox 1) ∧
        ¬ (Instr.sbox 1 = .einv ∧ CopiesConflict (withOpnd 63).opnd)) ∧
      (IndexLegal .einv ∧ (withOpnd 0).opnd.toNat < 2 ^ win .einv ∧ ¬ (Instr.einv = .einv ∧ CopiesConflict 0)) :=
  ⟨⟨by decide, by decide, fun h => absurd h.1 (by decide)⟩, by decide, by decide, fun h => no_conflict_of_zero h.2⟩

theorem witness_ResultsAreRightAligned :
    exec .e (withOpnd 0xFFFFFFFF) = .next ((withOpnd 0xFFFFFFFF).deliver (.ok 0xFFFFFFFFFFFF)) ∧
      ((withOpnd 0xFFFFFFFF).deliver (.ok 0xFFFFFFFFFFFF)).response = some (.ok 0xFFFFFFFFFFFF) ∧ wout .e ≤ 48 := by
  refine ⟨?_, rfl, by decide⟩
  rw [exec_eq_iff]; decide

theorem witness_StatusCodes : exec .ip State.reset = .next (State.reset.deliver (.ok 0)) := witness_OperationFrame

/-- One input for each of the three cases, and the last of the six operations that never raise it. -/
theorem witness_WidthAndRangeErrors :
    2 ^ win (.rsched 3) ≤ (withOpnd 1).opnd.toNat ∧ (¬ (1 ≤ 9 ∧ 9 ≤ 8)) ∧ (¬ (1 ≤ 0 ∧ 0 ≤ 16)) ∧
      Instr.parity ∈ [Instr.ip, .fp, .pc1, .ipinv, .fpinv, .parity] := by decide

theorem witness_StepKeepsTheInterfaceConsistent :
    let s : State := { State.reset with cmd := 0x0322, response := some (.ok 1) }
    s.Inv ∧ step s = .next s.idle := by
  refine ⟨⟨?_, by decide⟩, rfl⟩
  rintro r ⟨⟩
  decide

theorem witness_HostKeepsTheInterfaceConsistent :
    State.Inv { State.reset with response := some (.err .illegalCommand) } :=
  ⟨by rintro r ⟨⟩; decide, by decide⟩

theorem witness_EachRequestIsAnsweredOnce : (asked 1 2).resetAsserted = false ∧ (asked 1 2).outstanding.length = 1 :=
  ⟨rfl, rfl⟩

theorem witness_BacklogIsServed :
    ((asked 1 2).issue ⟨2, 3, 4⟩).resetAsserted = false ∧ ((asked 1 2).issue ⟨2, 3, 4⟩).outstanding.length = 2 ∧
      ([[⟨3, 5, 6⟩], []] : List (List Request)).length = 2 :=
  ⟨rfl, rfl, rfl⟩

theorem witness_ServiceKeepsEachRequestersOrder :
    (State.nextRequest { State.reset with outstanding := [⟨1, 1, 0⟩, ⟨1, 2, 0⟩] }) =
      some (⟨1, 1, 0⟩, [⟨1, 2, 0⟩]) := test_one_requester_in_order _ _ rfl

theorem witness_AnyRequesterMayHaveTheTurn : (⟨2, 3, 4⟩ : Request) ∈ (⟨1, 1, 0⟩ : Request) :: [⟨2, 3, 4⟩] := by decide

/-- The widest operand that fits and the narrowest that does not, for each declared width below 64. -/
theorem witness_declared_widths :
    ((withOpnd 0xFFFFFFFF).opnd.toNat < 2 ^ 32 ∧ 2 ^ 32 ≤ (withOpnd 0x100000000).opnd.toNat) ∧
      ((withOpnd 0xFFFFFFFFFFFF).opnd.toNat < 2 ^ 48 ∧ 2 ^ 48 ≤ (withOpnd 0x1000000000000).opnd.toNat) ∧
      ((withOpnd 0xFFFFFFFFFFFFFF).opnd.toNat < 2 ^ 56 ∧ 2 ^ 56 ≤ (withOpnd 0x100000000000000).opnd.toNat) ∧
      ((withOpnd 63).opnd.toNat < 64 ∧ 64 ≤ (withOpnd 64).opnd.toNat) := by decide

theorem witness_EExpands : (withOpnd 0xFFFFFFFF).opnd.toNat < 2 ^ 32 ∧ 2 ^ 32 ≤ (withOpnd 0x100000000).opnd.toNat :=
  witness_declared_widths.1

theorem witness_PIsTheStraightPermutation :
    (withOpnd 0xFFFFFFFF).opnd.toNat < 2 ^ 32 ∧ 2 ^ 32 ≤ (withOpnd 0x100000000).opnd.toNat :=
  witness_declared_widths.1

theorem witness_Pc1DropsTheParityBits : 1 ≤ 8 ∧ 8 ≤ 8 := by decide

theorem witness_Pc2SelectsTheRoundKey :
    (withOpnd 0xFFFFFFFFFFFFFF).opnd.toNat < 2 ^ 56 ∧ 2 ^ 56 ≤ (withOpnd 0x100000000000000).opnd.toNat :=
  witness_declared_widths.2.2.1

theorem witness_PinvUndoesP :
    (withOpnd 0xFFFFFFFF).opnd.toNat < 2 ^ 32 ∧ 2 ^ 32 ≤ (withOpnd 0x100000000).opnd.toNat :=
  witness_declared_widths.1

/-- Too wide; ambiguous; and neither. -/
theorem witness_EinvReadsTheCopies :
    2 ^ 48 ≤ (withOpnd 0x1000000000000).opnd.toNat ∧
      ((withOpnd 1).opnd.toNat < 2 ^ 48 ∧ CopiesConflict (withOpnd 1).opnd) ∧
      ((withOpnd 0).opnd.toNat < 2 ^ 48 ∧ ¬ CopiesConflict (withOpnd 0).opnd) ∧ (0xFFFFFFFF : Word).toNat < 2 ^ 32 :=
  ⟨by decide, ⟨by decide, conflict_of_one⟩, ⟨by decide, no_conflict_of_zero⟩, by decide⟩

theorem witness_ParityMakesEveryByteOdd :
    ∀ k, 1 ≤ k → k ≤ 8 → popcount (byteOf (parityFn 0) k) % 2 = 1 := fun k h1 h2 => (oddParityOf_parityFn 0 k h1 h2).1

theorem witness_Pc1invRestoresAnOddKey :
    (withOpnd 0xFFFFFFFFFFFFFF).opnd.toNat < 2 ^ 56 ∧ 2 ^ 56 ≤ (withOpnd 0x100000000000000).opnd.toNat :=
  witness_declared_widths.2.2.1

theorem witness_Pc2invFillsWithZero :
    (withOpnd 0xFFFFFFFFFFFF).opnd.toNat < 2 ^ 48 ∧ 2 ^ 48 ≤ (withOpnd 0x1000000000000).opnd.toNat :=
  witness_declared_widths.2.1

theorem witness_ParityIsIdempotent : 1 ≤ 1 ∧ 1 ≤ 8 ∧ 8 ≤ 8 := by decide

theorem witness_Pc1invLaws : (0xFFFFFFFFFFFFFF : Word).toNat < 2 ^ 56 := by decide

theorem witness_Pc2invLaws : (0xFFFFFFFFFFFF : Word).toNat < 2 ^ 48 ∧ (0xFFFFFFFFFFFFFF : Word).toNat < 2 ^ 56 := by
  decide

theorem witness_LsRotatesEachHalfLeft :
    (withOpnd 0xFFFFFFFFFFFFFF).opnd.toNat < 2 ^ 56 ∧ 2 ^ 56 ≤ (withOpnd 0x100000000000000).opnd.toNat :=
  witness_declared_widths.2.2.1

theorem witness_RsRotatesEachHalfRight :
    (withOpnd 0xFFFFFFFFFFFFFF).opnd.toNat < 2 ^ 56 ∧ 2 ^ 56 ≤ (withOpnd 0x100000000000000).opnd.toNat :=
  witness_declared_widths.2.2.1

/-- Both ends of the field and of the legal range, a flag 0 and a flag 1 round, and each error clause. -/
theorem witness_RschedReadsTheSchedule :
    255 < 256 ∧ (State.reset.opnd = 0 ∧ 1 ∈ [1, 2, 9, 16] ∧ 16 ∈ [1, 2, 9, 16]) ∧
      (1 ≤ 3 ∧ 3 ≤ 16 ∧ 3 ∉ [1, 2, 9, 16]) ∧ (¬ (1 ≤ 0 ∧ 0 ≤ 16) ∧ ¬ (1 ≤ 17 ∧ 17 ≤ 16)) ∧ (withOpnd 1).opnd ≠ 0 := by
  decide

theorem witness_LsAndRsAreInverse :
    (0xFFFFFFFFFFFFFF : Word).toNat < 2 ^ 56 ∧ Answers .ls 0x80000000000000 (.ok 0x00000010000000) ∧
      Answers .ls 0x80000000000001 (.ok 0x00000010000002) ∧
      halfC 0x80000000000000 = halfC 0x80000000000001 ∧ Answers .rs 0x1 (.ok 0x8000000) ∧
      Answers .rs 0x10000001 (.ok 0x80000008000000) ∧ halfD 0x1 = halfD 0x10000001 := by
  refine ⟨by decide, ?_, ?_, by decide, ?_, ?_, by decide⟩ <;> exact (answers_iff _ _ _).mpr (by decide)

theorem witness_PseudoInstructionsIssueTwoRequests :
    State.reset.resetAsserted = false ∧ State.reset.outstanding = [] ∧
      (Line.rs2 (.lit 5), Instr.rs) ∈ [(Line.ls2 (.lit 5), Instr.ls), (Line.rs2 (.lit 5), Instr.rs)] ∧
      (0xFFFFFFFFFFFFFF : Word).toNat < 2 ^ 56 ∧ 2 ^ 56 ≤ (0x100000000000000 : Word).toNat := by decide

theorem witness_RotationCycleIdentity : (0xFFFFFFFFFFFFFF : Word).toNat < 2 ^ 56 := by decide

theorem witness_CumulativeRotation : (1 ≤ 1 ∧ 1 ≤ 16) ∧ (1 ≤ 16 ∧ 16 ≤ 16) ∧ (0xFFFFFFFFFFFFFF : Word).toNat < 2 ^ 56 := by
  decide

theorem witness_SboxLooksUpRowAndColumn :
    255 < 256 ∧ (1 ≤ 8 ∧ 8 ≤ 8 ∧ (withOpnd 63).opnd.toNat < 64) ∧ (¬ (1 ≤ 0 ∧ 0 ≤ 8) ∧ ¬ (1 ≤ 9 ∧ 9 ≤ 8)) ∧
      64 ≤ (withOpnd 64).opnd.toNat := by decide

theorem witness_SboxesLooksUpEveryGroup :
    (withOpnd 0xFFFFFFFFFFFF).opnd.toNat < 2 ^ 48 ∧ 2 ^ 48 ≤ (withOpnd 0x1000000000000).opnd.toNat ∧ 1 ≤ 1 ∧ 8 ≤ 8 := by
  decide

theorem witness_SboxesIsEightSboxRequests : (0xFFFFFFFFFFFF : Word).toNat < 2 ^ 48 ∧ 1 ≤ 1 ∧ 8 ≤ 8 := by decide

theorem witness_TableFacts : (1 ≤ 64 ∧ 64 ≤ 64) ∧ (1 ≤ 32 ∧ 32 ≤ 32) ∧ (1 ≤ 24 ∧ 24 ≤ 24) ∧ (25 ≤ 48 ∧ 48 ≤ 48) := by
  decide

end Sys2Proof.Tests
end

section
/-! PROOFS. The scope's statements about every operation: the width of a result and the width and range errors
(spec/00_scope.md R15, R16, spec/60_exceptions.md R201). Both are read off the four ways an operation can respond
(`responds`). -/

namespace Sys2Proof.Machine

/-- R16: a result is a word of the operation's declared output width. -/
theorem toNat_lt_of_respond_ok {i : Instr} {v r : Word} (h : respond i v = .ok r) : r.toNat < 2 ^ wout i := by
  cases responds i v with
  | badIndex _ e => cases e.symm.trans h
  | tooWide _ _ e => cases e.symm.trans h
  | ambiguous _ _ _ e => cases e.symm.trans h
  | result _ _ _ r' e hr =>
    cases e.symm.trans h
    exact hr

/-- R74: only SBOX and RSCHED can have an illegal index. -/
theorem not_indexLegal_iff (i : Instr) :
    ¬ IndexLegal i ↔ (∃ n, i = .sbox n ∧ ¬ (1 ≤ n ∧ n ≤ 8)) ∨ (∃ r, i = .rsched r ∧ ¬ (1 ≤ r ∧ r ≤ 16)) := by
  cases i <;> simp [IndexLegal, indexLegal]

/-- R201: the two causes of INVALID_WIDTH_RANGE, an operand too wide and an index out of range. -/
theorem respond_eq_invalidWidthRange_iff (i : Instr) (v : Word) :
    respond i v = .err .invalidWidthRange ↔ 2 ^ win i ≤ v.toNat ∨ ¬ IndexLegal i := by
  cases responds i v with
  | badIndex h e => simp [e, h]
  | tooWide _ hw e => simp [e, hw]
  | ambiguous h hw _ e =>
    subst h
    have fits : ¬ 2 ^ win .einv ≤ v.toNat := Nat.not_le.mpr hw
    have legal : IndexLegal .einv := rfl
    simp [e, fits, legal]
  | result h hw _ _ e _ =>
    have fits : ¬ 2 ^ win i ≤ v.toNat := Nat.not_le.mpr hw
    simp [e, fits, h]

/-- R201: an operation that takes a whole port and no index never raises INVALID_WIDTH_RANGE. -/
theorem respond_ne_invalidWidthRange {i : Instr} (hw : win i = 64) (hl : IndexLegal i) (v : Word) :
    respond i v ≠ .err .invalidWidthRange := by
  rw [Ne, respond_eq_invalidWidthRange_iff, hw]
  rintro (h | h)
  · exact absurd v.isLt (Nat.not_lt.mpr h)
  · exact h hl

/-- Settles O15: the delivered result is the rule's response, which is below `2 ^ wout`. -/
theorem resultsAreRightAligned : Obligations.ResultsAreRightAligned := by
  intro i s t v hexec hv
  rw [exec_eq, Host.Outcome.next.injEq] at hexec
  subst hexec
  rw [State.deliver_response, Option.some.injEq] at hv
  exact (toNat_lt_two_pow_iff v (wout i)).mp (toNat_lt_of_respond_ok hv)

/-- Settles O16: by the causes of the error, and for the six operations because no value of the port is too wide. -/
theorem widthAndRangeErrors : Obligations.WidthAndRangeErrors := by
  constructor
  · intro i s
    rw [exec_eq_iff, respond_eq_invalidWidthRange_iff, not_indexLegal_iff]
  · intro i hi
    have h64 : ∀ j ∈ [Instr.ip, .fp, .pc1, .ipinv, .fpinv, .parity], win j = 64 ∧ IndexLegal j := by decide
    obtain ⟨hw, hl⟩ := h64 i hi
    exact ⟨hw, fun s h => respond_ne_invalidWidthRange hw hl s.opnd ((exec_eq_iff i s _).mp h)⟩

end Sys2Proof.Machine
end

section
/-! PROOFS. The response of a step that serves a request (spec/10_state.md R26): it is `answerTo` of the request's command
word and operand. -/

namespace Sys2Proof.Machine

/-- A step outside reset that has a request to serve answers that request. -/
theorem step_of_nextRequest {s : State} {q : Request} {rest : List Request} (hr : s.resetAsserted = false)
    (hn : s.nextRequest = some (q, rest)) :
    step s = .next ((s.serve q rest).deliver (answerTo q.cmd q.opnd)) := by
  rcases step_cases s with ⟨hreset, -⟩ | ⟨-, hnone, -⟩ | ⟨-, q', rest', hsome, hstep⟩
  · simp [hr] at hreset
  · simp [hn] at hnone
  · obtain ⟨rfl, rfl⟩ : q = q' ∧ rest = rest' := by simpa [hn] using hsome
    exact hstep

/-- Settles O10: both steps deliver `answerTo` of the shared command word and operand. -/
theorem responseDependsOnTheRequestAlone : Obligations.ResponseDependsOnTheRequestAlone := by
  intro s s' q q' rest rest' hr hr' hn hn' hcmd hopnd
  have hstep' : step s' = .next ((s'.serve q' rest').deliver (answerTo q.cmd q.opnd)) := by
    rw [hcmd, hopnd]
    exact step_of_nextRequest hr' hn'
  exact ⟨_, _, answerTo q.cmd q.opnd, step_of_nextRequest hr hn, hstep', State.deliver_response _ _,
    State.deliver_response _ _⟩

end Sys2Proof.Machine
end

section
/-! PROOFS. The step against `decode_and_run` (spec/30_encoding.md R78 to R80). What a step answers, `answerTo` of the
request, is compared with `decodeAndRun` on the two fields of the command word: the checks of `decodeAndRun` are those of
the decoder (R79, R80) followed by those of the decoded operation (R74, R75), and its `runRule` is the operation's rule. -/

namespace Sys2Proof.Machine

/-! ## The operation codes in `decodeAndRun`'s terms -/

/-- R79: the 18 assigned codes are distinct 8-bit values, so 238 of the 256 are left. -/
theorem countP_unassigned_ops : ((List.range 256).countP fun op => decide (op ∉ assignedOps)) = 238 := by
  have lt_256 : ∀ op ∈ assignedOps, op < 256 := by decide
  have assigned : ((List.range 256).filter fun op => decide (op ∈ assignedOps)).Perm assignedOps := by
    rw [List.perm_ext_iff_of_nodup (List.nodup_range.filter _) (by decide)]
    simpa using lt_256
  have total := List.length_eq_countP_add_countP (fun op => decide (op ∈ assignedOps)) (l := List.range 256)
  rw [List.countP_eq_length_filter, assigned.length_eq, List.length_range,
    show assignedOps.length = 18 from rfl] at total
  simp only [decide_eq_true_eq] at total
  omega

theorem opcode_mem_assignedOps (i : Instr) : i.opcode ∈ assignedOps := by
  cases i <;> simp [Instr.opcode, assignedOps]

/-- R80: the operations whose codes are neither RSCHED's nor SBOX's take no index. -/
theorem index_eq_zero_of_opcode {i : Instr} (h : i.opcode ∉ [0x22, 0x30]) : i.index = 0 := by
  cases i with
  | rsched r => simp [Instr.opcode] at h
  | sbox n => simp [Instr.opcode] at h
  | _ => rfl

/-- R74: an index is legal when it passes the two range checks of R78. -/
theorem indexLegal_iff_range_checks (i : Instr) :
    IndexLegal i ↔ ¬ (i.opcode = 0x30 ∧ ¬ (1 ≤ i.index ∧ i.index ≤ 8)) ∧
      ¬ (i.opcode = 0x22 ∧ ¬ (1 ≤ i.index ∧ i.index ≤ 16)) := by
  cases i <;> simp [IndexLegal, indexLegal, Instr.opcode, Instr.index]

theorem lookup_opWidths_opcode (i : Instr) : opWidths.lookup i.opcode = some (win i) := by
  cases i <;> rfl

/-- R78: once the index and the width have passed, an operation responds by its rule. -/
theorem respond_eq_runRule {i : Instr} {v : Word} (hl : IndexLegal i) (hw : v.toNat < 2 ^ win i) :
    respond i v = runRule i.opcode i.index v := by
  cases i with
  | einv => exact if_pos ((fitsWidth_iff v 48).mpr hw)
  | rsched r =>
    have hr : roundLegal r = true := (roundLegal_iff r).mpr (by simpa [IndexLegal, indexLegal] using hl)
    exact (if_pos hr).trans (checked_of_fits _ hw)
  | sbox n =>
    have hn : sboxIndexLegal n = true := (sboxIndexLegal_iff n).mpr (by simpa [IndexLegal, indexLegal] using hl)
    exact (if_pos hn).trans (checked_of_fits _ hw)
  | _ => exact checked_of_fits _ hw

/-! ## `decodeAndRun` on the two fields of the command word -/

/-- R79: the first check. -/
theorem decodeAndRun_of_unassigned {cmd : CmdWord} (ho : opField cmd ∉ assignedOps) (v : Word) :
    decodeAndRun cmd v = .err .illegalCommand := by
  simp only [decodeAndRun, ← opField_eq]
  exact if_pos ho

/-- R80: the second check. -/
theorem decodeAndRun_of_nonzero_idx {cmd : CmdWord} (ho : opField cmd ∉ [0x22, 0x30]) (hi : idxField cmd ≠ 0)
    (v : Word) : decodeAndRun cmd v = .err .illegalCommand := by
  simp only [decodeAndRun, ← opField_eq, ← idxField_eq]
  rw [if_pos (c := opField cmd ∉ [0x22, 0x30] ∧ idxField cmd ≠ 0) ⟨ho, hi⟩, ite_self]

/-- R74, R75, R78: on the fields of an operation, the remaining checks and the rule are the operation's response. -/
theorem decodeAndRun_of_fields {cmd : CmdWord} {i : Instr} (ho : opField cmd = i.opcode) (hi : idxField cmd = i.index)
    (v : Word) : decodeAndRun cmd v = respond i v := by
  have assigned : ¬ i.opcode ∉ assignedOps := not_not.mpr (opcode_mem_assignedOps i)
  have indexed : ¬ (i.opcode ∉ [0x22, 0x30] ∧ i.index ≠ 0) := fun h => h.2 (index_eq_zero_of_opcode h.1)
  simp only [decodeAndRun, ← opField_eq, ← idxField_eq, ho, hi]
  rw [if_neg assigned, if_neg indexed, lookup_opWidths_opcode, Option.getD_some]
  by_cases hl : IndexLegal i
  · obtain ⟨hsbox, hround⟩ := (indexLegal_iff_range_checks i).mp hl
    rw [if_neg hsbox, if_neg hround]
    by_cases hw : v.toNat < 2 ^ win i
    · rw [if_neg (not_not.mpr hw), respond_eq_runRule hl hw]
    · rw [if_pos hw, (respond_eq_invalidWidthRange_iff i v).mpr (.inl (Nat.le_of_not_lt hw))]
  · rw [(respond_eq_invalidWidthRange_iff i v).mpr (.inr hl)]
    by_cases hsbox : i.opcode = 0x30 ∧ ¬ (1 ≤ i.index ∧ i.index ≤ 8)
    · exact if_pos hsbox
    · have hround : i.opcode = 0x22 ∧ ¬ (1 ≤ i.index ∧ i.index ≤ 16) :=
        not_not.mp fun h => hl ((indexLegal_iff_range_checks i).mpr ⟨hsbox, h⟩)
      rw [if_neg hsbox, if_pos hround]

/-! ## The decoder against the first two checks -/

theorem unindexed_ne_unassignedOp (op idx op' : Nat) (i : Instr) : unindexed op idx i ≠ .error (.unassignedOp op') := by
  unfold unindexed
  split <;> simp

/-- R77: the decoder knows every assigned code. -/
theorem decodeFields_ne_unassignedOp {op : Nat} (h : op ∈ assignedOps) (idx op' : Nat) :
    decodeFields op idx ≠ .error (.unassignedOp op') := by
  fin_cases h <;> simp [decodeFields, unindexed_ne_unassignedOp]

/-- R79, R80: a word the decoder finds illegal fails one of the first two checks. -/
theorem decodeAndRun_of_decode_error {cmd : CmdWord} {why : DecodeError} (h : decode cmd = .error why) (v : Word) :
    decodeAndRun cmd v = .err .illegalCommand := by
  by_cases ho : opField cmd ∈ assignedOps
  · rcases decodeFields_error h with rfl | ⟨-, hidx, h22, h30⟩
    · exact absurd h (decodeFields_ne_unassignedOp ho _ _)
    · exact decodeAndRun_of_nonzero_idx (by simp [h22, h30]) hidx v
  · exact decodeAndRun_of_unassigned ho v

/-- R78: the block's decoder and operations together are `decode_and_run`. -/
theorem answerTo_eq_decodeAndRun (cmd : CmdWord) (v : Word) : answerTo cmd v = decodeAndRun cmd v := by
  unfold answerTo
  cases hd : decode cmd with
  | ok i =>
    obtain ⟨hop, hidx⟩ := decodeFields_ok hd
    exact (decodeAndRun_of_fields hop.symm hidx.symm v).symm
  | error why => exact (decodeAndRun_of_decode_error hd v).symm

/-! ## The statements -/

/-- Settles O8: the step delivers `answerTo` of the request, which is `decodeAndRun` of it. -/
theorem stepAnswersDecodeAndRun : Obligations.StepAnswersDecodeAndRun := by
  intro s q rest hr hn
  rw [step_of_nextRequest hr hn, answerTo_eq_decodeAndRun]

/-- Settles O5: the step's answer is `decodeAndRun`, whose first check fails. -/
theorem unassignedOpIsIllegal : Obligations.UnassignedOpIsIllegal := by
  refine ⟨countP_unassigned_ops, fun s q rest hr hn hop => ?_⟩
  rw [stepAnswersDecodeAndRun s q rest hr hn, decodeAndRun_of_unassigned hop]

/-- Settles O6: the step's answer is `decodeAndRun`, whose second check fails. -/
theorem indexOnUnindexedOpIsIllegal : Obligations.IndexOnUnindexedOpIsIllegal := by
  intro s q rest hr hn _ h22 h30 hidx
  rw [stepAnswersDecodeAndRun s q rest hr hn, decodeAndRun_of_nonzero_idx (by simp [h22, h30]) hidx]

end Sys2Proof.Machine
end

section
/-! PROOFS. The forward permutations (spec/40_permutations.md R101 to R107). Each is a width check and then `permute` by
one table, and `permute` meets the contract `Selects` (`selects_permute`); so one lemma gives what each answers within
its declared width and one what it answers beyond. IP and FP undo each other because their tables do, entry by entry. -/

namespace Sys2Proof.Machine

/-! ## An operation that selects by a table -/

/-- R12, R15: an operation whose rule is the width check and then `permute` answers OK, within its width, with the word
its table selects. -/
theorem exec_selects {i : Instr} {T : List Nat} (hrule : ∀ v, respond i v = checked (win i) v (permute T (win i)))
    (hT : T.length ≤ 64) {s : State} (hfits : s.opnd.toNat < 2 ^ win i) :
    ∃ r, exec i s = .next (s.deliver (.ok r)) ∧ Selects T (win i) s.opnd r := by
  refine ⟨permute T (win i) s.opnd, ?_, selects_permute T (win i) s.opnd hT⟩
  rw [exec_eq_iff, hrule, checked_of_fits _ hfits]

/-- R15: an operand beyond the declared width is an error, whatever the operation. -/
theorem exec_of_too_wide (i : Instr) {s : State} (hwide : 2 ^ win i ≤ s.opnd.toNat) :
    exec i s = .next (s.deliver (.err .invalidWidthRange)) :=
  (widthAndRangeErrors.1 i s).mp (.inl hwide)

/-! ## The positions PC1 and PC2 leave out -/

/-- R105: PC1 names no parity position. -/
theorem pc1_mod_eight_ne_zero : ∀ t ∈ Tables.pc1, t % 8 ≠ 0 := by decide

/-- R106: PC2 leaves out eight positions. -/
theorem not_mem_pc2 : ∀ p ∈ [9, 18, 22, 25, 35, 38, 43, 54], p ∉ Tables.pc2 := by decide

/-! ## Selecting by two tables in turn -/

/-- Selecting by `U` undoes selecting by `T` when entry `i` of `T`, read through `U`, is `i` (R12, R107). -/
theorem permute_permute_eq_self {T U : List Nat} {w : Nat} (hT : T.length = w) (hU : U.length = w) (hw : w ≤ 64)
    (hrange : ∀ t ∈ U, 1 ≤ t ∧ t ≤ w)
    (hinv : ∀ i, 1 ≤ i → i ≤ w → Tables.entry T (Tables.entry U i) = i) {v : Word} (hv : v.toNat < 2 ^ w) :
    permute U w (permute T w v) = v := by
  obtain ⟨-, selT⟩ := selects_permute T w v (by omega)
  obtain ⟨hlt, selU⟩ := selects_permute U w (permute T w v) (by omega)
  rw [hT] at selT
  rw [hU] at hlt selU
  refine eq_of_pos hlt hv fun i h1 h2 => ?_
  obtain ⟨hlo, hhi⟩ := hrange _ (entry_mem U i h1 (by omega))
  calc pos (permute U w (permute T w v)) w i
      = pos (permute T w v) w (Tables.entry U i) := selU i h1 h2
    _ = pos v w (Tables.entry T (Tables.entry U i)) := selT _ hlo hhi
    _ = pos v w i := by rw [hinv i h1 h2]

/-- R29: the tables IP and FP are inverse, entry by entry. -/
theorem entry_fp_ip_inverse : ∀ i ∈ List.range' 1 64,
    Tables.entry Tables.fp (Tables.entry Tables.ip i) = i ∧
      Tables.entry Tables.ip (Tables.entry Tables.fp i) = i := by decide

theorem entry_fp_entry_ip (i : Nat) (h1 : 1 ≤ i) (h2 : i ≤ 64) :
    Tables.entry Tables.fp (Tables.entry Tables.ip i) = i :=
  (entry_fp_ip_inverse i (List.mem_range'_1.mpr ⟨h1, by omega⟩)).1

theorem entry_ip_entry_fp (i : Nat) (h1 : 1 ≤ i) (h2 : i ≤ 64) :
    Tables.entry Tables.ip (Tables.entry Tables.fp i) = i :=
  (entry_fp_ip_inverse i (List.mem_range'_1.mpr ⟨h1, by omega⟩)).2

/-- R107: FP undoes IP. -/
theorem permute_fp_permute_ip (x : Word) : permute Tables.fp 64 (permute Tables.ip 64 x) = x :=
  permute_permute_eq_self ip_length fp_length (by decide) fp_positions.2 entry_ip_entry_fp x.isLt

/-- R107: IP undoes FP. -/
theorem permute_ip_permute_fp (x : Word) : permute Tables.ip 64 (permute Tables.fp 64 x) = x :=
  permute_permute_eq_self fp_length ip_length (by decide) ip_positions.2 entry_fp_entry_ip x.isLt

theorem answers_ip (x : Word) : Answers .ip x (.ok (permute Tables.ip 64 x)) :=
  (answers_iff _ _ _).mpr (checked_64 _ _)

theorem answers_fp (x : Word) : Answers .fp x (.ok (permute Tables.fp 64 x)) :=
  (answers_iff _ _ _).mpr (checked_64 _ _)

/-! ## The statements. The corner cases and examples are responses to concrete operands, which `decide` evaluates. -/

/-- Settles O29: no operand is too wide, and IP selects by its table. -/
theorem ipIsTheInitialPermutation : Obligations.IpIsTheInitialPermutation := by
  refine ⟨rfl, rfl, fun s => exec_selects (i := .ip) (fun _ => rfl) (by decide) s.opnd.isLt, ?_⟩
  simp only [answers_iff]
  decide

/-- Settles O30: no operand is too wide, and FP selects by its table. -/
theorem fpIsTheFinalPermutation : Obligations.FpIsTheFinalPermutation := by
  refine ⟨rfl, rfl, fun s => exec_selects (i := .fp) (fun _ => rfl) (by decide) s.opnd.isLt, ?_⟩
  simp only [answers_iff]
  decide

/-- Settles O31: within 32 bits E selects by its table, beyond it the width check fails. -/
theorem eExpands : Obligations.EExpands := by
  refine ⟨rfl, rfl, fun _ hfits => exec_selects (i := .e) (fun _ => rfl) (by decide) hfits,
    fun _ hwide => exec_of_too_wide .e hwide, ?_⟩
  simp only [answers_iff]
  decide

/-- Settles O32: within 32 bits P selects by its table, beyond it the width check fails. -/
theorem pIsTheStraightPermutation : Obligations.PIsTheStraightPermutation := by
  refine ⟨rfl, rfl, fun _ hfits => exec_selects (i := .p) (fun _ => rfl) (by decide) hfits,
    fun _ hwide => exec_of_too_wide .p hwide, ?_⟩
  simp only [answers_iff]
  decide

/-- Settles O33: no operand is too wide, PC1 selects by its table of 56 entries, and none of them is a multiple of 8. -/
theorem pc1DropsTheParityBits : Obligations.Pc1DropsTheParityBits := by
  refine ⟨rfl, rfl, fun s => ?_, fun k _ _ hmem => pc1_mod_eight_ne_zero _ hmem (Nat.mul_mod_right 8 k), ?_⟩
  · obtain ⟨r, hexec, hsel⟩ := exec_selects (i := .pc1) (fun _ => rfl) (by decide) s.opnd.isLt
    exact ⟨r, hexec, hsel, hsel.1⟩
  · simp only [answers_iff]
    decide

/-- Settles O34: within 56 bits PC2 selects by its table, beyond it the width check fails. -/
theorem pc2SelectsTheRoundKey : Obligations.Pc2SelectsTheRoundKey := by
  refine ⟨rfl, rfl, fun _ hfits => exec_selects (i := .pc2) (fun _ => rfl) (by decide) hfits,
    fun _ hwide => exec_of_too_wide .pc2 hwide, not_mem_pc2, ?_⟩
  simp only [answers_iff]
  decide

/-- Settles O35: each answers its permutation of the operand, and the two permutations undo each other. -/
theorem ipAndFpAreInverse : Obligations.IpAndFpAreInverse := by
  intro x
  have fpUndoesIp := answers_fp (permute Tables.ip 64 x)
  have ipUndoesFp := answers_ip (permute Tables.fp 64 x)
  rw [permute_fp_permute_ip] at fpUndoesIp
  rw [permute_ip_permute_fp] at ipUndoesFp
  exact ⟨⟨_, answers_ip x, fpUndoesIp⟩, _, answers_fp x, ipUndoesFp⟩

end Sys2Proof.Machine
end

section
/-! PROOFS. The inverse permutations and the parity recomputation (spec/41_inverses.md R131 to R143). `scatter` meets the
contract `Scatters` (`scatters_scatter`) as `permute` meets `Selects`; selecting by a table and scattering by its inverse
are one function, so IPINV and FPINV answer what FP and IP do. EINV and E undo each other position by position. PARITY
leaves a word alone when every byte of it is odd, and its own results are such words. -/

namespace Sys2Proof.Machine

/-! ## Selecting and scattering by inverse tables -/

/-- R12: what `U` selects is what `T` scatters, when `T` and `U` are inverse, entry by entry (R131, R132). -/
theorem Selects.scatters_of_inverse {T U : List Nat} {w : Nat} (hT : T.length = w) (hU : U.length = w)
    (hTrange : ∀ t ∈ T, 1 ≤ t ∧ t ≤ w) (hUrange : ∀ t ∈ U, 1 ≤ t ∧ t ≤ w)
    (hUT : ∀ i, 1 ≤ i → i ≤ w → Tables.entry U (Tables.entry T i) = i)
    (hTU : ∀ i, 1 ≤ i → i ≤ w → Tables.entry T (Tables.entry U i) = i) {v r : Word} (h : Selects U w v r) :
    Scatters T w v r := by
  obtain ⟨hlt, hsel⟩ := h
  rw [hU] at hlt hsel
  refine ⟨hlt, fun i h1 h2 => ?_, fun p h1 h2 hp => ?_⟩
  · obtain ⟨hlo, hhi⟩ := hTrange _ (entry_mem T i h1 h2)
    rw [hT] at h2 ⊢
    rw [hsel _ hlo hhi, hUT i h1 h2]
  · obtain ⟨hlo, hhi⟩ := hUrange _ (entry_mem U p h1 (by omega))
    have hmem := entry_mem T (Tables.entry U p) hlo (by omega)
    rw [hTU p h1 h2] at hmem
    exact absurd hmem hp

/-- R131: selecting by FP is scattering by IP. -/
theorem Selects.scatters_ip {v r : Word} (h : Selects Tables.fp 64 v r) : Scatters Tables.ip 64 v r :=
  h.scatters_of_inverse ip_length fp_length ip_positions.2 fp_positions.2 entry_fp_entry_ip entry_ip_entry_fp

/-- R132: selecting by IP is scattering by FP. -/
theorem Selects.scatters_fp {v r : Word} (h : Selects Tables.ip 64 v r) : Scatters Tables.fp 64 v r :=
  h.scatters_of_inverse fp_length ip_length fp_positions.2 ip_positions.2 entry_ip_entry_fp entry_fp_entry_ip

/-- R131: IPINV's rule is FP's. -/
theorem respond_ipinv : respond .ipinv = respond .fp := rfl

/-- R132: FPINV's rule is IP's. -/
theorem respond_fpinv : respond .fpinv = respond .ip := rfl

/-! ## An operation that scatters by a table -/

/-- R12, R15: an operation whose rule is the width check and then `scatter` answers OK, within its width, with the word
its table scatters. -/
theorem exec_scatters {i : Instr} {T : List Nat} {w : Nat}
    (hrule : ∀ v, respond i v = checked (win i) v (scatter T w)) (hw : w ≤ 64)
    (hT : T.Nodup ∧ ∀ t ∈ T, 1 ≤ t ∧ t ≤ w) {s : State} (hfits : s.opnd.toNat < 2 ^ win i) :
    ∃ r, exec i s = .next (s.deliver (.ok r)) ∧ Scatters T w s.opnd r := by
  refine ⟨scatter T w s.opnd, ?_, scatters_scatter T w s.opnd hw hT.1 hT.2⟩
  rw [exec_eq_iff, hrule, checked_of_fits _ hfits]

/-- Scattering by a table that names every position undoes selecting by it (R12, R139). -/
theorem scatter_permute_eq_self {T : List Nat} {w : Nat} (hw : w ≤ 64) (hl : T.length ≤ 64)
    (hT : T.Nodup ∧ ∀ t ∈ T, 1 ≤ t ∧ t ≤ w) (hall : ∀ p, 1 ≤ p → p ≤ w → p ∈ T) {v : Word} (hv : v.toNat < 2 ^ w) :
    scatter T w (permute T w v) = v := by
  refine eq_of_pos (scatters_scatter T w _ hw hT.1 hT.2).1 hv fun p h1 h2 => ?_
  rw [pos_eq_pos_iff, scatter_permute_getLsbD v hw hl hT (by omega)]
  simp [hall (w - (w - p)) (by omega) (by omega)]

/-! ## P and PINV -/

/-- R139: P names every one of its 32 positions. -/
theorem mem_p {j : Nat} (h1 : 1 ≤ j) (h2 : j ≤ 32) : j ∈ Tables.p := by
  have hall : ∀ j ∈ List.range' 1 32, j ∈ Tables.p := by decide
  exact hall j (List.mem_range'_1.mpr ⟨h1, by omega⟩)

theorem answers_p {x : Word} (hx : x.toNat < 2 ^ 32) : Answers .p x (.ok (permute Tables.p 32 x)) :=
  (answers_iff _ _ _).mpr (checked_of_fits _ hx)

theorem answers_pinv {x : Word} (hx : x.toNat < 2 ^ 32) : Answers .pinv x (.ok (scatter Tables.p 32 x)) :=
  (answers_iff _ _ _).mpr (checked_of_fits _ hx)

/-- R139: PINV undoes P. -/
theorem pinv_undoes_p {x : Word} (hx : x.toNat < 2 ^ 32) : ∃ y, Answers .p x (.ok y) ∧ Answers .pinv y (.ok x) := by
  have pinv := answers_pinv (selects_permute Tables.p 32 x (by decide)).1
  rw [scatter_permute_eq_self (by decide) (by decide) p_positions (fun _ => mem_p) hx] at pinv
  exact ⟨_, answers_p hx, pinv⟩

/-- R139: P undoes PINV. -/
theorem p_undoes_pinv {x : Word} (hx : x.toNat < 2 ^ 32) : ∃ y, Answers .pinv x (.ok y) ∧ Answers .p y (.ok x) := by
  have p := answers_p (scatters_scatter Tables.p 32 x (by decide) p_positions.1 p_positions.2).1
  rw [permute_scatter x (by decide) (by decide) p_positions hx] at p
  exact ⟨_, answers_pinv hx, p⟩

/-! ## E and EINV -/

/-- R135, R202: copies that disagree are an error. -/
theorem respond_einv_of_conflict {v : Word} (hv : v.toNat < 2 ^ 48) (hc : CopiesConflict v) :
    respond .einv v = .err .ambiguousInput := by
  simp only [respond, respEinv, fitsWidth_iff, hv, (ambiguous_iff v).mpr hc, if_true]

theorem ambiguous_eq_false {v : Word} (hc : ¬ CopiesConflict v) : ambiguous v = false := by
  rwa [Bool.eq_false_iff, Ne, ambiguous_iff]

/-- R135: where the copies agree, EINV answers the word that reads them. -/
theorem respond_einv_of_agree {v : Word} (hv : v.toNat < 2 ^ 48) (hc : ¬ CopiesConflict v) :
    respond .einv v = .ok (einvFn v) := by
  simp only [respond, respEinv, fitsWidth_iff, hv, ambiguous_eq_false hc, if_true, Bool.false_eq_true, if_false]

theorem answers_e {x : Word} (hx : x.toNat < 2 ^ 32) : Answers .e x (.ok (permute Tables.e 32 x)) :=
  (answers_iff _ _ _).mpr (checked_of_fits _ hx)

/-- R103: each position of an expansion, and its width. -/
theorem selects_e (x : Word) : Selects Tables.e 32 x (permute Tables.e 32 x) := selects_permute _ _ _ (by decide)

/-- R135: E expands the word EINV reads back to the operand. -/
theorem permute_e_einvFn {v : Word} (hv : v.toNat < 2 ^ 48) (hc : ¬ CopiesConflict v) :
    permute Tables.e 32 (einvFn v) = v := by
  obtain ⟨hlt, hsel⟩ := selects_e (einvFn v)
  refine eq_of_pos hlt hv fun i h1 h2 => ?_
  exact (hsel i h1 h2).trans (einvFn_pos v (ambiguous_eq_false hc) i h1 h2)

/-- R135: the copies in an expansion agree: each is the bit of one position of the operand. -/
theorem not_copiesConflict_permute_e (x : Word) : ¬ CopiesConflict (permute Tables.e 32 x) := by
  obtain ⟨-, hsel⟩ := selects_e x
  rintro ⟨i, i', h1, h2, h3, h4, hentry, hne⟩
  exact hne <| calc
    pos (permute Tables.e 32 x) 48 i = pos x 32 (Tables.entry Tables.e i) := hsel i h1 h2
    _ = pos x 32 (Tables.entry Tables.e i') := by rw [hentry]
    _ = pos (permute Tables.e 32 x) 48 i' := (hsel i' h3 h4).symm

/-- R135: the word read from an expansion is the word expanded, since every position has a copy. -/
theorem einvFn_permute_e {x : Word} (hx : x.toNat < 2 ^ 32) : einvFn (permute Tables.e 32 x) = x := by
  obtain ⟨-, hsel⟩ := selects_e x
  have hagree := ambiguous_eq_false (not_copiesConflict_permute_e x)
  refine eq_of_pos (einvFn_lt _) hx fun j h1 h2 => ?_
  obtain ⟨⟨hlo, hhi⟩, hentry⟩ := (mem_outs _ j).mp (head_outs_mem h1 h2)
  rw [← hentry]
  exact (einvFn_pos _ hagree _ hlo hhi).trans (hsel _ hlo hhi)

/-- R135: EINV undoes E. -/
theorem einv_undoes_e {x : Word} (hx : x.toNat < 2 ^ 32) : ∃ y, Answers .e x (.ok y) ∧ Answers .einv y (.ok x) := by
  refine ⟨_, answers_e hx, (answers_iff _ _ _).mpr ?_⟩
  rw [respond_einv_of_agree (selects_e x).1 (not_copiesConflict_permute_e x), einvFn_permute_e hx]

/-! ## Parity -/

/-- R13, R35: the ones of a byte are its parity bit and the ones among its data bits. -/
theorem popcount_byteOf (v : Word) {k : Nat} (h1 : 1 ≤ k) (h2 : k ≤ 8) :
    popcount (byteOf v k) =
      (v.getLsbD (64 - 8 * k)).toNat + popcount (slice v (71 - 8 * k) (65 - 8 * k)) := by
  rw [byteOf, popcount_slice _ _ _ (by omega), popcount_slice _ _ _ (by omega),
    show 71 - 8 * k - (64 - 8 * k) + 1 = 7 + 1 by omega, show 71 - 8 * k - (65 - 8 * k) + 1 = 7 by omega,
    popcountLow_succ_front, BitVec.getLsbD_ushiftRight, Nat.add_zero, ← BitVec.shiftRight_add,
    show 64 - 8 * k + 1 = 65 - 8 * k by omega]

/-- R136: the bit that makes a count odd is determined by the rest of the count. -/
theorem parity_bit_of_odd {b : Bool} {n : Nat} (h : (b.toNat + n) % 2 = 1) : decide (n % 2 = 0) = b := by
  cases b with
  | false => simpa using h
  | true => simp only [Bool.toNat_true, decide_eq_true_eq] at h ⊢; omega

/-- R136: a word whose bytes are all odd is its own recomputation: each parity bit is the one that makes its byte odd. -/
theorem parityFn_eq_self {x : Word} (hodd : ∀ k, 1 ≤ k → k ≤ 8 → popcount (byteOf x k) % 2 = 1) : parityFn x = x := by
  refine BitVec.eq_of_getLsbD_eq fun i hi => ?_
  rw [parityFn_getLsbD x i hi]
  split
  · obtain ⟨k, h1, h2, rfl⟩ : ∃ k, 1 ≤ k ∧ k ≤ 8 ∧ i = 64 - 8 * k := ⟨8 - i / 8, by omega, by omega, by omega⟩
    have hbyte := hodd k h1 h2
    rw [popcount_byteOf x h1 h2] at hbyte
    rw [show 64 - 8 * k + 7 = 71 - 8 * k by omega, show 64 - 8 * k + 1 = 65 - 8 * k by omega]
    exact parity_bit_of_odd hbyte
  · rfl

theorem answers_parity (x : Word) : Answers .parity x (.ok (parityFn x)) := (answers_iff _ _ _).mpr (checked_64 _ _)

/-- R136: PARITY leaves a word of odd bytes alone. -/
theorem answers_parity_of_odd {x : Word} (hodd : ∀ k, 1 ≤ k → k ≤ 8 → popcount (byteOf x k) % 2 = 1) :
    Answers .parity x (.ok x) := by
  have h := answers_parity x
  rwa [parityFn_eq_self hodd] at h

/-- R141: every byte of a recomputed word is odd. -/
theorem popcount_byteOf_parityFn (x : Word) (k : Nat) (h1 : 1 ≤ k) (h2 : k ≤ 8) :
    popcount (byteOf (parityFn x) k) % 2 = 1 :=
  (oddParityOf_parityFn x k h1 h2).1

/-! ## The statements. The corner cases and examples are responses to concrete operands, which `decide` evaluates. -/

/-- Settles O36: IPINV selects by FP, which scatters by IP, and its rule is FP's. -/
theorem ipinvIsFp : Obligations.IpinvIsFp := by
  refine ⟨rfl, rfl, fun s => ?_, ?_⟩
  · obtain ⟨r, hexec, hsel⟩ := exec_selects (i := .ipinv) (fun _ => rfl) (by decide) s.opnd.isLt
    refine ⟨r, hexec, hsel, hsel.scatters_ip, ?_⟩
    rwa [answers_iff, ← respond_ipinv, ← exec_eq_iff]
  · rw [answers_iff]
    decide

/-- Settles O37: FPINV selects by IP, which scatters by FP, and its rule is IP's. -/
theorem fpinvIsIp : Obligations.FpinvIsIp := by
  refine ⟨rfl, rfl, fun s => ?_, ?_⟩
  · obtain ⟨r, hexec, hsel⟩ := exec_selects (i := .fpinv) (fun _ => rfl) (by decide) s.opnd.isLt
    refine ⟨r, hexec, hsel, hsel.scatters_fp, ?_⟩
    rwa [answers_iff, ← respond_fpinv, ← exec_eq_iff]
  · rw [answers_iff]
    decide

/-- Settles O38: within 32 bits PINV scatters by P, beyond it the width check fails; P names every position, so selecting
and scattering by it undo each other. -/
theorem pinvUndoesP : Obligations.PinvUndoesP := by
  have values : respond .pinv 0 = .ok 0 ∧ respond .pinv 0xFFFFFFFF = .ok 0xFFFFFFFF ∧
      respond .pinv 0x00000001 = .ok 0x00000080 ∧ respond .pinv 0x80000000 = .ok 0x00010000 ∧
      respond .pinv 0x234AA9BB = .ok 0x5C82B597 := by decide
  simp only [← answers_iff] at values
  obtain ⟨zero, ones, low, high, worked⟩ := values
  exact ⟨rfl, rfl, fun _ hfits => exec_scatters (i := .pinv) (fun _ => rfl) (by decide) p_positions hfits,
    fun _ hwide => exec_of_too_wide .pinv hwide, zero, ones, low, high,
    fun _ hx => ⟨pinv_undoes_p hx, p_undoes_pinv hx⟩, worked⟩

/-- Settles O39: the width check, then the copies; where they agree, the word read from them expands to the operand, and
the word read from an expansion is the word expanded. -/
theorem einvReadsTheCopies : Obligations.EinvReadsTheCopies := by
  refine ⟨rfl, rfl, fun _ hwide => exec_of_too_wide .einv hwide, fun s hfits hc => ?conflict, fun s hfits hc => ?agree,
    fun _ => einv_undoes_e, ?values⟩
  case conflict => exact (exec_eq_iff _ _ _).mpr (respond_einv_of_conflict hfits hc)
  case agree =>
    have expand := answers_e (einvFn_lt s.opnd)
    rw [permute_e_einvFn hfits hc] at expand
    exact ⟨einvFn s.opnd, (exec_eq_iff _ _ _).mpr (respond_einv_of_agree hfits hc), einvFn_lt _,
      einvFn_pos _ (ambiguous_eq_false hc), expand⟩
  case values =>
    simp only [answers_iff]
    decide

/-- Settles O40: PARITY recomputes every parity bit, which changes nothing where the bytes are odd already. -/
theorem parityMakesEveryByteOdd : Obligations.ParityMakesEveryByteOdd := by
  refine ⟨rfl, rfl, fun s => ⟨parityFn s.opnd, answers_parity _ s rfl, oddParityOf_parityFn _⟩,
    fun _ hodd => answers_parity_of_odd hodd, ?_⟩
  simp only [answers_iff]
  decide

/-- Settles O41: within 56 bits PC1INV recomputes the parity of the word PC1 scatters, beyond it the width check fails. -/
theorem pc1invRestoresAnOddKey : Obligations.Pc1invRestoresAnOddKey := by
  refine ⟨rfl, rfl, fun s hfits => ?_, fun _ hwide => exec_of_too_wide .pc1inv hwide, ?_⟩
  · exact ⟨scatter Tables.pc1 64 s.opnd, pc1invFn s.opnd, (exec_eq_iff _ _ _).mpr (checked_of_fits _ hfits),
      scatters_scatter _ _ _ (by decide) pc1_positions.1 pc1_positions.2, oddParityOf_parityFn _⟩
  · simp only [answers_iff]
    decide

/-- Settles O42: within 48 bits PC2INV scatters by PC2, so the eight positions PC2 leaves out are 0; beyond it the width
check fails. -/
theorem pc2invFillsWithZero : Obligations.Pc2invFillsWithZero := by
  refine ⟨rfl, rfl, fun s hfits => ?_, fun _ hwide => exec_of_too_wide .pc2inv hwide, ?_⟩
  · obtain ⟨r, hexec, hscat⟩ := exec_scatters (i := .pc2inv) (fun _ => rfl) (by decide) pc2_positions hfits
    have dropped : ∀ p ∈ [9, 18, 22, 25, 35, 38, 43, 54], 1 ≤ p ∧ p ≤ 56 := by decide
    have ⟨_, _, hzero⟩ := hscat
    exact ⟨r, hexec, hscat, fun p hp => hzero p (dropped p hp).1 (dropped p hp).2 (not_mem_pc2 p hp)⟩
  · simp only [answers_iff]
    decide

/-- Settles O45: a recomputed word has odd bytes, and PARITY leaves such a word alone. -/
theorem parityIsIdempotent : Obligations.ParityIsIdempotent := by
  intro x
  have hodd := popcount_byteOf_parityFn x
  exact ⟨parityFn x, answers_parity x, answers_parity_of_odd hodd, hodd⟩

end Sys2Proof.Machine
end

section
/-! PROOFS. The half rotations and the round schedule (spec/42_rotate.md R160 to R164). LS and RS move each bit within
its half by a fixed number of places (`RotatesHalves`); places add up over repeated requests, so 28 of either come round.
The walk through the schedule is `cum` applications of LS (`scheduleWalk_iterate`), 28 over the whole schedule. -/

namespace Sys2Proof.Machine

/-! ## The command words -/

/-- R83: the assembled word, its two fields written as one number. -/
theorem encode_eq_ofNat {i : Instr} (h : i.WellFormed) : encode i = BitVec.ofNat 16 (i.index * 256 + i.opcode) := by
  rw [← encode_toNat h, BitVec.ofNat_toNat, BitVec.setWidth_eq]

/-- R72, R77: the fields of the assembled word decode to the operation. -/
theorem decode_encode {i : Instr} (h : i.WellFormed) : decode (encode i) = .ok i := by
  obtain ⟨hop, hidx⟩ := Laws.fields_of i h
  rw [decode, hop, hidx]
  cases i <;> rfl

/-! ## The answers of LS, RS and RSCHED -/

theorem respond_ls {v : Word} (hv : v.toNat < 2 ^ 56) : respond .ls v = .ok (lsFn v) := checked_of_fits _ hv

theorem respond_rs {v : Word} (hv : v.toNat < 2 ^ 56) : respond .rs v = .ok (rsFn v) := checked_of_fits _ hv

/-- R162: within the rounds, and with the operand 0, RSCHED answers the flag of the round. -/
theorem respond_rsched {r : Nat} (h1 : 1 ≤ r) (h2 : r ≤ 16) :
    respond (.rsched r) 0 = .ok (BitVec.ofNat 64 (Tables.entry Tables.shift r)) :=
  (if_pos ((roundLegal_iff r).mpr ⟨h1, h2⟩)).trans (checked_of_fits _ (by decide))

/-- R36, R162: the rounds whose flag is 0. -/
theorem entry_shift_eq {r : Nat} (h1 : 1 ≤ r) (h2 : r ≤ 16) :
    Tables.entry Tables.shift r = if r ∈ [1, 2, 9, 16] then 0 else 1 := by
  have table : ∀ r ∈ List.range' 1 16,
      Tables.entry Tables.shift r = if r ∈ [1, 2, 9, 16] then 0 else 1 := by decide
  exact table r (List.mem_range'_1.mpr ⟨h1, by omega⟩)

/-- R162: a flag is 0 or 1, so the word RSCHED answers counts as the flag does. -/
theorem toNat_ofNat_entry_shift {r : Nat} (h1 : 1 ≤ r) (h2 : r ≤ 16) :
    (BitVec.ofNat 64 (Tables.entry Tables.shift r)).toNat = Tables.entry Tables.shift r := by
  rw [entry_shift_eq h1 h2]
  split <;> rfl

/-! ## Rotating the halves again and again -/

/-- The bit that `m` rotations to the right of its 28-bit half bring to bit `k`. -/
def bitSource (m k : Nat) : Nat := k / 28 * 28 + (k % 28 + m) % 28

theorem bitSource_lt {k : Nat} (hk : k < 56) (m : Nat) : bitSource m k < 56 := by
  unfold bitSource
  omega

theorem bitSource_bitSource (m n k : Nat) : bitSource m (bitSource n k) = bitSource (n + m) k := by
  unfold bitSource
  omega

/-- Rotations in multiples of 28 come round. -/
theorem bitSource_mul_28 (m k : Nat) : bitSource (28 * m) k = k := by
  unfold bitSource
  omega

/-- `f` rotates each 28-bit half of a word by `m` places to the right, and answers 56-bit words. -/
structure RotatesHalves (f : Word → Word) (m : Nat) : Prop where
  lt : ∀ v, (f v).toNat < 2 ^ 56
  getLsbD : ∀ v k, k < 56 → (f v).getLsbD k = v.getLsbD (bitSource m k)

/-- R160: one place to the left is 27 to the right. -/
theorem rotatesHalves_lsFn : RotatesHalves lsFn 27 := by
  refine ⟨lsFn_lt, fun v k hk => ?_⟩
  rw [lsFn_getLsbD, bitSource]
  split_ifs <;> exact congrArg v.getLsbD (by omega)

/-- R161. -/
theorem rotatesHalves_rsFn : RotatesHalves rsFn 1 := by
  refine ⟨rsFn_lt, fun v k hk => ?_⟩
  rw [rsFn_getLsbD, bitSource]
  split_ifs <;> exact congrArg v.getLsbD (by omega)

section
variable {f : Word → Word} {m : Nat} (hf : RotatesHalves f m)
include hf

theorem RotatesHalves.iterate_lt (n : Nat) {v : Word} (hv : v.toNat < 2 ^ 56) : (f^[n] v).toNat < 2 ^ 56 := by
  induction n generalizing v with
  | zero => exact hv
  | succ n ih => exact ih (hf.lt v)

/-- The places of repeated rotations add up. -/
theorem RotatesHalves.iterate_getLsbD (n : Nat) (v : Word) {k : Nat} (hk : k < 56) :
    (f^[n] v).getLsbD k = v.getLsbD (bitSource (n * m) k) := by
  induction n generalizing v with
  | zero => simpa using congrArg v.getLsbD (bitSource_mul_28 0 k).symm
  | succ n ih =>
    calc (f^[n] (f v)).getLsbD k
        = (f v).getLsbD (bitSource (n * m) k) := ih (f v)
      _ = v.getLsbD (bitSource m (bitSource (n * m) k)) := hf.getLsbD v _ (bitSource_lt hk _)
      _ = v.getLsbD (bitSource ((n + 1) * m) k) := by rw [bitSource_bitSource, Nat.succ_mul]

/-- R164: 28 rotations bring every bit of a 56-bit word back to its place. -/
theorem RotatesHalves.iterate_28 {v : Word} (hv : v.toNat < 2 ^ 56) : f^[28] v = v := by
  refine BitVec.eq_of_getLsbD_eq fun k _ => ?_
  by_cases hk : k < 56
  · rw [hf.iterate_getLsbD 28 v hk, bitSource_mul_28]
  · have hk' : 56 ≤ k := Nat.le_of_not_lt hk
    rw [(toNat_lt_two_pow_iff _ 56).mp (hf.iterate_lt 28 hv) k hk', (toNat_lt_two_pow_iff v 56).mp hv k hk']

/-- An operation that rotates the halves, requested again and again, iterates its rotation. -/
theorem RotatesHalves.repeats {i : Instr} (hrule : ∀ {v : Word}, v.toNat < 2 ^ 56 → respond i v = .ok (f v))
    (n : Nat) {v : Word} (hv : v.toNat < 2 ^ 56) : Repeats i n v (f^[n] v) := by
  induction n generalizing v with
  | zero => rfl
  | succ n ih => exact ⟨f v, (answers_iff _ _ _).mpr (hrule hv), ih (hf.lt v)⟩

end

theorem repeats_ls (n : Nat) {v : Word} (hv : v.toNat < 2 ^ 56) : Repeats .ls n v (lsFn^[n] v) :=
  rotatesHalves_lsFn.repeats respond_ls n hv

theorem repeats_rs (n : Nat) {v : Word} (hv : v.toNat < 2 ^ 56) : Repeats .rs n v (rsFn^[n] v) :=
  rotatesHalves_rsFn.repeats respond_rs n hv

/-! ## The walk through the schedule -/

theorem cum_monotone : Monotone Tables.cum := monotone_nat_of_le_succ fun _ => Nat.le_add_right _ _

/-- R165: the rotations of round `r + 1` and those of the `n` rounds after it. -/
theorem cum_sub_cum_succ (r n : Nat) :
    Tables.cum (r + 1 + n) - Tables.cum (r + 1) + (1 + Tables.entry Tables.shift (r + 1)) =
      Tables.cum (r + (n + 1)) - Tables.cum r := by
  have hround : Tables.cum (r + 1) = Tables.cum r + (1 + Tables.entry Tables.shift (r + 1)) := rfl
  have hmono := cum_monotone (show r + 1 ≤ r + 1 + n by omega)
  rw [show r + (n + 1) = r + 1 + n by omega]
  omega

/-- R164, R165: `n` rounds of the schedule after round `r` apply LS as often as `cum` counts between them. -/
theorem scheduleWalk_iterate {r n : Nat} (hr : r + n ≤ 16) {v : Word} (hv : v.toNat < 2 ^ 56) :
    ScheduleWalk (r + 1) n v (lsFn^[Tables.cum (r + n) - Tables.cum r] v) := by
  induction n generalizing r v with
  | zero => simp [ScheduleWalk]
  | succ n ih =>
    have hlo : 1 ≤ r + 1 := by omega
    have hhi : r + 1 ≤ 16 := by omega
    have flag := (answers_iff _ _ _).mpr (respond_rsched hlo hhi)
    have rest := ih (r := r + 1) (by omega) (rotatesHalves_lsFn.iterate_lt (1 + Tables.entry Tables.shift (r + 1)) hv)
    rw [← Function.iterate_add_apply, cum_sub_cum_succ] at rest
    refine ⟨_, _, flag, ?_, rest⟩
    rw [toNat_ofNat_entry_shift hlo hhi]
    exact repeats_ls _ hv

/-- R164: the whole schedule is 28 rotations. -/
theorem scheduleWalk_whole {v : Word} (hv : v.toNat < 2 ^ 56) : ScheduleWalk 1 16 v v := by
  have walk : ScheduleWalk 1 16 v (lsFn^[28] v) := scheduleWalk_iterate (r := 0) (n := 16) (by decide) hv
  rwa [rotatesHalves_lsFn.iterate_28 hv] at walk

/-! ## The statements. The corner cases and examples are responses to concrete operands, which `decide` evaluates. -/

/-- Settles O48: within 56 bits LS takes the bit of the next position, or of the first position of the half; beyond it
the width check fails. -/
theorem lsRotatesEachHalfLeft : Obligations.LsRotatesEachHalfLeft := by
  refine ⟨rfl, rfl, fun s hfits => ?rotates, fun _ hwide => exec_of_too_wide .ls hwide, ?values⟩
  case rotates =>
    refine ⟨lsFn s.opnd, (exec_eq_iff _ _ _).mpr (respond_ls hfits), lsFn_lt _, fun p hp => ?_, ?_, ?_⟩ <;>
      rw [pos_eq_pos_iff, lsFn_getLsbD]
    · rw [if_neg (by omega), if_neg (by omega), if_pos (by omega), Nat.sub_sub]
    · rfl
    · rfl
  case values =>
    simp only [answers_iff]
    decide

/-- Settles O49: within 56 bits RS takes the bit of the position before, or of the last position of the half; beyond it
the width check fails. -/
theorem rsRotatesEachHalfRight : Obligations.RsRotatesEachHalfRight := by
  refine ⟨rfl, rfl, fun s hfits => ?rotates, fun _ hwide => exec_of_too_wide .rs hwide, ?values⟩
  case rotates =>
    refine ⟨rsFn s.opnd, (exec_eq_iff _ _ _).mpr (respond_rs hfits), rsFn_lt _, fun p hp => ?_, ?_, ?_⟩ <;>
      rw [pos_eq_pos_iff, rsFn_getLsbD]
    · rw [if_neg (by omega), if_neg (by omega), if_pos (by omega), show 56 - (p + 1) + 1 = 56 - p by omega]
    · rfl
    · rfl
  case values =>
    simp only [answers_iff]
    decide

/-- Settles O50: with the operand 0 a round of the schedule answers its flag; the two errors are those of every
operation, the index out of range and the operand too wide, which for width 0 is any but 0. -/
theorem rschedReadsTheSchedule : Obligations.RschedReadsTheSchedule := by
  have reads (s : State) (r : Nat) (h1 : 1 ≤ r) (h2 : r ≤ 16) (hs : s.opnd = 0) :
      exec (.rsched r) s = .next (s.deliver (.ok (BitVec.ofNat 64 (Tables.entry Tables.shift r)))) := by
    rw [exec_eq_iff, hs]
    exact respond_rsched h1 h2
  refine ⟨fun r hr => ?words, rfl, fun s r hs hmem => ?flag0, fun s r hs h1 h2 hmem => ?flag1, reads,
    fun s r herr => ?error, ?values⟩
  case words =>
    have wellFormed : (Instr.rsched r).WellFormed := by simpa [Instr.WellFormed, Instr.wellFormed] using hr
    have word := encode_eq_ofNat wellFormed
    exact ⟨word, (congrArg decode word).symm.trans (decode_encode wellFormed)⟩
  case flag0 =>
    have rounds : ∀ r ∈ [1, 2, 9, 16], 1 ≤ r ∧ r ≤ 16 := by decide
    obtain ⟨h1, h2⟩ := rounds r hmem
    rw [reads s r h1 h2 hs, entry_shift_eq h1 h2, if_pos hmem]
    rfl
  case flag1 =>
    rw [reads s r h1 h2 hs, entry_shift_eq h1 h2, if_neg hmem]
    rfl
  case error =>
    rw [exec_eq_iff, respond_eq_invalidWidthRange_iff]
    rcases herr with hr | hopnd
    · exact .inr ((not_indexLegal_iff _).mpr (.inr ⟨r, rfl, hr⟩))
    · exact .inl (Nat.pos_of_ne_zero (BitVec.toNat_ne.mp hopnd))
  case values =>
    simp only [answers_iff]
    decide

/-- Settles O52: 28 rotations come round, and the schedule is 28 rotations; so the walk from PC1 of a key ends where it
began. -/
theorem rotationCycleIdentity : Obligations.RotationCycleIdentity := by
  refine ⟨fun v hv => ⟨?ls, ?rs, scheduleWalk_whole hv⟩, rfl, fun k => ?key⟩
  case ls => simpa only [rotatesHalves_lsFn.iterate_28 hv] using repeats_ls 28 hv
  case rs => simpa only [rotatesHalves_rsFn.iterate_28 hv] using repeats_rs 28 hv
  case key =>
    have hc : (permute Tables.pc1 64 k).toNat < 2 ^ 56 := (selects_permute Tables.pc1 64 k (by decide)).1
    have pc1 : Answers .pc1 k (.ok (permute Tables.pc1 64 k)) := (answers_iff _ _ _).mpr (checked_64 _ _)
    have pc2 := (answers_iff .pc2 _ _).mpr (checked_of_fits _ hc)
    exact ⟨_, _, pc1, scheduleWalk_whole hc, _, pc2, pc2⟩

end Sys2Proof.Machine
end

section
/-! PROOFS. The S-box lookups (spec/43_sbox.md R180 to R182). The row and the column of a lookup are arithmetic on its
6-bit input (`sboxFn_eq_ofNat`), which is the operand of SBOX and a group of the operand of SBOXES (`sboxFn_sboxGroup`). -/

namespace Sys2Proof.Machine

/-! ## The command words -/

/-- R72, R83: the word of an operation's index and code, as one number, decodes to the operation. -/
theorem decode_ofNat_fields {i : Instr} (h : i.WellFormed) :
    decode (BitVec.ofNat 16 (i.index * 256 + i.opcode)) = .ok i := by
  rw [← encode_eq_ofNat h, decode_encode h]

/-! ## A lookup as arithmetic on its input -/

/-- R180: for a 6-bit input, the row is read from the outer bits and the column from the inner four. -/
theorem sboxFn_eq_ofNat (n : Nat) {v : Word} (hv : v.toNat < 64) :
    sboxFn n v = BitVec.ofNat 64 (((Tables.sboxes.getD (n - 1) []).getD (2 * (v.toNat / 32) + v.toNat % 2) []).getD
      (v.toNat / 2 % 16) 0) := by
  rw [sboxFn, sboxRow_eq v hv, sboxCol_eq v hv, zext64]

/-- R182: the lookup of group `g`; the group is the operand shifted down to it, modulo 64. -/
theorem sboxFn_sboxGroup (v : Word) (g : Nat) :
    sboxFn g (sboxGroup v g) = BitVec.ofNat 64
      (((Tables.sboxes.getD (g - 1) []).getD
        (2 * (v.toNat / 2 ^ (48 - 6 * g) % 64 / 32) + v.toNat / 2 ^ (48 - 6 * g) % 2) []).getD
        (v.toNat / 2 ^ (48 - 6 * g) / 2 % 16) 0) := by
  have hgroup := sboxGroup_toNat v g
  have hlt : (sboxGroup v g).toNat < 64 := hgroup ▸ Nat.mod_lt _ (by decide)
  have lastBit (x : Nat) : x % 64 % 2 = x % 2 := by omega
  have column (x : Nat) : x % 64 / 2 % 16 = x / 2 % 16 := by omega
  rw [sboxFn_eq_ofNat g hlt, hgroup, lastBit, column]

/-! ## The answers of SBOX and SBOXES -/

/-- R181: with a legal index, and within 6 bits, SBOX answers its lookup. -/
theorem respond_sbox {n : Nat} (h1 : 1 ≤ n) (h8 : n ≤ 8) {v : Word} (hv : v.toNat < 2 ^ 6) :
    respond (.sbox n) v = .ok (sboxFn n v) :=
  (if_pos ((sboxIndexLegal_iff n).mpr ⟨h1, h8⟩)).trans (checked_of_fits _ hv)

/-- R182: within 48 bits SBOXES answers the eight lookups side by side. -/
theorem respond_sboxes {v : Word} (hv : v.toNat < 2 ^ 48) : respond .sboxes v = .ok (sboxesFn v) :=
  checked_of_fits _ hv

/-! ## The statements. The corner cases and examples are responses to concrete operands, which `decide` evaluates. -/

/-- Settles O55: with a legal index and within 6 bits SBOX answers the entry at its operand's row and column; the two
errors are those of every operation, the index out of range and the operand too wide. -/
theorem sboxLooksUpRowAndColumn : Obligations.SboxLooksUpRowAndColumn := by
  refine ⟨fun n hn => ?words, rfl, fun s n h1 h8 hfits => ?lookup, fun s n herr => ?error, ?values⟩
  case words =>
    have wellFormed : (Instr.sbox n).WellFormed := by simpa [Instr.WellFormed, Instr.wellFormed] using hn
    have decoded := decode_ofNat_fields wellFormed
    exact ⟨encode_eq_ofNat wellFormed, decoded⟩
  case lookup =>
    rw [exec_eq_iff, respond_sbox h1 h8 hfits, sboxFn_eq_ofNat n hfits]
  case error =>
    rw [exec_eq_iff, respond_eq_invalidWidthRange_iff]
    rcases herr with hn | hwide
    · exact .inr ((not_indexLegal_iff _).mpr (.inl ⟨n, rfl, hn⟩))
    · exact .inl hwide
  case values =>
    simp only [answers_iff]
    decide

/-- Settles O56: within 48 bits each nibble of SBOXES' answer is the lookup of its group, beyond it the width check
fails. -/
theorem sboxesLooksUpEveryGroup : Obligations.SboxesLooksUpEveryGroup := by
  refine ⟨rfl, rfl, fun s hfits => ?lookups, fun _ hwide => exec_of_too_wide .sboxes hwide, ?values⟩
  case lookups =>
    refine ⟨sboxesFn s.opnd, (exec_eq_iff _ _ _).mpr (respond_sboxes hfits), sboxesFn_lt _, fun g h1 h8 => ?_⟩
    rw [sboxesFn_nibble _ g h1 h8, sboxFn_sboxGroup]
  case values =>
    simp only [answers_iff]
    decide

end Sys2Proof.Machine
end

section
/-! PROOFS. The status of a response (spec/60_exceptions.md R202, R204, R205). An illegal word fails one of the first two
checks of `decodeAndRun`; a legal one is an operation's word, and the operation responds in one of four ways
(`responds`): each later error has one cause, and with none of the causes the response is a result. -/

namespace Sys2Proof.Machine

@[simp] theorem State.deliver_statusPort (s : State) (r : Response) : (s.deliver r).statusPort = some r.status := rfl

/-- R202: the one cause of AMBIGUOUS_INPUT. -/
theorem respond_eq_ambiguousInput_iff (i : Instr) (v : Word) :
    respond i v = .err .ambiguousInput ↔ i = .einv ∧ v.toNat < 2 ^ 48 ∧ CopiesConflict v := by
  constructor
  · intro h
    cases responds i v with
    | badIndex _ e => cases e.symm.trans h
    | tooWide _ _ e => cases e.symm.trans h
    | ambiguous hi hw hc _ => exact ⟨hi, hw, hc⟩
    | result _ _ _ _ e _ => cases e.symm.trans h
  · rintro ⟨rfl, hw, hc⟩
    exact respond_einv_of_conflict hw hc

/-- R205: an operation with none of the errors answers a result. -/
theorem exists_respond_ok {i : Instr} {v : Word} (hl : IndexLegal i) (hw : v.toNat < 2 ^ win i)
    (hc : ¬ (i = .einv ∧ CopiesConflict v)) : ∃ r, respond i v = .ok r := by
  cases responds i v with
  | badIndex h _ => exact absurd hl h
  | tooWide _ h _ => exact absurd hw (Nat.not_lt.mpr h)
  | ambiguous hi _ h _ => exact absurd ⟨hi, h⟩ hc
  | result _ _ _ r e _ => exact ⟨r, e⟩

/-- R79, R80: a word whose fields are legal is the word of an operation. -/
theorem exists_instr_of_legal_fields {cmd : CmdWord}
    (h : ¬ (opField cmd ∉ assignedOps ∨ opField cmd ∉ [0x22, 0x30] ∧ idxField cmd ≠ 0)) :
    ∃ i : Instr, i.opcode = opField cmd ∧ i.index = idxField cmd := by
  obtain ⟨hop, hidx⟩ := not_or.mp h
  cases hd : decodeFields (opField cmd) (idxField cmd) with
  | ok i => exact ⟨i, decodeFields_ok hd⟩
  | error why =>
    rcases decodeFields_error hd with rfl | ⟨-, hne, h22, h30⟩
    · exact absurd hd (decodeFields_ne_unassignedOp (not_not.mp hop) _ _)
    · exact absurd ⟨by simp [h22, h30], hne⟩ hidx

/-- Settles O17: an operation delivers what its rule responds, and ambiguity has one cause. -/
theorem ambiguityComesFromEinvAlone : Obligations.AmbiguityComesFromEinvAlone := by
  intro i s
  rw [exec_eq_iff, respond_eq_ambiguousInput_iff]

/-- Settles O9: the step delivers `decodeAndRun` of the request; on an illegal word that is ILLEGAL_COMMAND, and on the
word of an operation it is the operation's response, whose error is read off its cause. -/
theorem statusFollowsThePriority : Obligations.StatusFollowsThePriority := by
  intro s q rest hr hn
  refine ⟨_, stepAnswersDecodeAndRun s q rest hr hn, fun hillegal => ?illegal, fun hlegal => ?legal⟩
  case illegal =>
    have answer : decodeAndRun q.cmd q.opnd = .err .illegalCommand := by
      rcases hillegal with hop | ⟨hop, hidx⟩
      · exact decodeAndRun_of_unassigned hop _
      · exact decodeAndRun_of_nonzero_idx hop hidx _
    rw [answer]
    rfl
  case legal =>
    obtain ⟨i, hop, hidx⟩ := exists_instr_of_legal_fields hlegal
    rw [decodeAndRun_of_fields hop.symm hidx.symm, State.deliver_statusPort]
    refine ⟨i, hop, hidx, fun hindex => ?index, fun _ hwide => ?width, fun heinv hfits hc => ?copies,
      fun hindex hfits hc => ?result⟩
    case index =>
      rw [(respond_eq_invalidWidthRange_iff i _).mpr (.inr hindex)]
      rfl
    case width =>
      rw [(respond_eq_invalidWidthRange_iff i _).mpr (.inl hwide)]
      rfl
    case copies =>
      subst heinv
      rw [respond_einv_of_conflict hfits hc]
      rfl
    case result =>
      obtain ⟨r, answer⟩ := exists_respond_ok hindex hfits hc
      rw [answer]
      rfl

end Sys2Proof.Machine
end

section
/-! PROOFS. The command word (spec/30_encoding.md R72 to R81). A word is its two fields, so decoding and encoding undo each
other; and the 2^16 words are counted code by code: one index for the 16 codes that take none, all 256 for RSCHED and SBOX,
of which the legal ones can succeed. -/

namespace Sys2Proof.Machine

/-! ## Decoding and encoding -/

/-- R72, R74: an operation is well-formed when its index fits the field. -/
theorem wellFormed_of_index_lt {i : Instr} (h : i.index < 256) : i.WellFormed := by
  cases i with
  | rsched r => exact decide_eq_true h
  | sbox n => exact decide_eq_true h
  | _ => rfl

/-- Settles O1: the fields of the assembled word are the operation's code and index. -/
theorem decodeOfEncodeIsTheOperation : Obligations.DecodeOfEncodeIsTheOperation := fun _ h => decode_encode h

/-- Settles O2: the operation a word decodes to has the word's fields, and so has its assembled word. -/
theorem encodeOfDecodeIsTheWord : Obligations.EncodeOfDecodeIsTheWord := by
  intro w i h
  obtain ⟨hop, hidx⟩ := decodeFields_ok h
  have wellFormed : i.WellFormed := wellFormed_of_index_lt (hidx ▸ idxField_lt w)
  obtain ⟨hop', hidx'⟩ := Laws.fields_of i wellFormed
  exact ⟨wellFormed, eq_of_fields (hop'.trans hop) (hidx'.trans hidx)⟩

/-- Settles O3: the decoder evaluated on ten words. -/
theorem writtenWordsDecode : Obligations.WrittenWordsDecode :=
  ⟨rfl, rfl, rfl, rfl, rfl, rfl, rfl, rfl, rfl, rfl⟩

/-! ## Counting the words of one code -/

/-- R72: two 8-bit fields spell one command word. -/
theorem existsUnique_word_of_fields {op idx : Nat} (hop : op < 256) (hidx : idx < 256) :
    ∃! w : CmdWord, opField w = op ∧ idxField w = idx := by
  have fields : opField (BitVec.ofNat 16 (idx * 256 + op)) = op ∧
      idxField (BitVec.ofNat 16 (idx * 256 + op)) = idx := by
    rw [opField_eq, idxField_eq, BitVec.toNat_ofNat]
    omega
  exact ⟨_, fields, fun w hw => eq_of_fields (hw.1.trans fields.1.symm) (hw.2.trans fields.2.symm)⟩

/-- How many words of the code `op`, over its 256 indices, decode to something of the class `cls`. -/
def countWords (cls : Except DecodeError Instr → Bool) (op : Nat) : Nat :=
  (List.range 256).countP fun idx => cls (decodeFields op idx)

/-- The numbers below `n` that satisfy `p` are as many as a list without repetition that names them. -/
theorem countP_range_eq_length {n : Nat} {p : Nat → Bool} {l : List Nat} (hl : l.Nodup)
    (h : ∀ x, x ∈ l ↔ x < n ∧ p x = true) : (List.range n).countP p = l.length := by
  have named : ((List.range n).filter p).Perm l := by
    rw [List.perm_ext_iff_of_nodup (List.nodup_range.filter _) hl]
    simpa using fun x => (h x).symm
  rw [List.countP_eq_length_filter, named.length_eq]

/-- R81: every word can succeed, is out of range, or is illegal. -/
theorem countWords_add (op : Nat) :
    countWords wordCanSucceed op + countWords wordOutOfRange op + countWords wordIllegal op = 256 := by
  have classes (l : List Nat) : l.countP (fun idx => wordCanSucceed (decodeFields op idx)) +
      l.countP (fun idx => wordOutOfRange (decodeFields op idx)) +
      l.countP (fun idx => wordIllegal (decodeFields op idx)) = l.length := by
    induction l with
    | nil => rfl
    | cons idx l ih =>
      simp only [List.countP_cons, List.length_cons]
      cases decodeFields op idx with
      | error why => simp [wordCanSucceed, wordOutOfRange, wordIllegal] at ih ⊢; omega
      | ok i => cases hl : indexLegal i <;> simp [wordCanSucceed, wordOutOfRange, wordIllegal, hl] at ih ⊢ <;> omega
  simpa [countWords] using classes (List.range 256)

/-- R79: an unassigned code decodes with no index. -/
theorem exists_decodeFields_error {op : Nat} (h : op ∉ assignedOps) (idx : Nat) :
    ∃ why, decodeFields op idx = .error why := by
  cases hd : decodeFields op idx with
  | ok i => exact absurd ((decodeFields_ok hd).1 ▸ opcode_mem_assignedOps i) h
  | error why => exact ⟨why, rfl⟩

/-- R80: the codes that take no index. -/
theorem exists_decodeFields_eq_unindexed {op : Nat} (h : op ∈ assignedOps) (h22 : op ≠ 0x22) (h30 : op ≠ 0x30) :
    ∃ i, IndexLegal i ∧ ∀ idx, decodeFields op idx = unindexed op idx i := by
  have hmem : op ∈ assignedOps.filter fun op => op ≠ 0x22 ∧ op ≠ 0x30 :=
    List.mem_filter.mpr ⟨h, decide_eq_true ⟨h22, h30⟩⟩
  fin_cases hmem <;> exact ⟨_, rfl, fun _ => rfl⟩

/-- R79: every word of an unassigned code is illegal. -/
theorem countWords_of_unassigned {op : Nat} (h : op ∉ assignedOps) :
    countWords wordCanSucceed op = 0 ∧ countWords wordOutOfRange op = 0 ∧ countWords wordIllegal op = 256 := by
  have illegal : countWords wordIllegal op = 256 := by
    refine (List.countP_eq_length.mpr fun idx _ => ?_).trans List.length_range
    obtain ⟨why, hd⟩ := exists_decodeFields_error h idx
    rw [hd, wordIllegal]
  have total := countWords_add op
  omega

/-- R80: of the words of a code that takes no index, one is legal, and can succeed. -/
theorem countWords_of_unindexed {op : Nat} (h : op ∈ assignedOps) (h22 : op ≠ 0x22) (h30 : op ≠ 0x30) :
    countWords wordCanSucceed op = 1 ∧ countWords wordOutOfRange op = 0 ∧ countWords wordIllegal op = 255 := by
  obtain ⟨i, hl, hd⟩ := exists_decodeFields_eq_unindexed h h22 h30
  have succeeds : countWords wordCanSucceed op = 1 := by
    refine countP_range_eq_length (l := [0]) (by decide) fun idx => ?_
    rw [hd, unindexed, List.mem_singleton]
    split <;> simp_all [wordCanSucceed]
  have outOfRange : countWords wordOutOfRange op = 0 := by
    refine List.countP_eq_zero.mpr fun idx _ => ?_
    rw [hd, unindexed]
    split <;> simp_all [wordOutOfRange]
  have total := countWords_add op
  omega

/-- R74, R81: of the words of a code that takes an index, the `n` with a legal one can succeed and the rest are out of
range. -/
theorem countWords_of_indexed {op n : Nat} {i : Nat → Instr} (hd : ∀ idx, decodeFields op idx = .ok (i idx))
    (hl : ∀ idx, IndexLegal (i idx) ↔ 1 ≤ idx ∧ idx ≤ n) (hn : n < 256) :
    countWords wordCanSucceed op = n ∧ countWords wordOutOfRange op = 256 - n ∧ countWords wordIllegal op = 0 := by
  have succeeds : countWords wordCanSucceed op = n := by
    refine (countP_range_eq_length List.nodup_range' fun idx => ?_).trans (List.length_range' (s := 1) (step := 1))
    have legal : indexLegal (i idx) = true ↔ 1 ≤ idx ∧ idx ≤ n := hl idx
    rw [hd, wordCanSucceed, legal, List.mem_range'_1]
    omega
  have illegal : countWords wordIllegal op = 0 := by
    refine List.countP_eq_zero.mpr fun idx _ => ?_
    rw [hd, wordIllegal]
    decide
  have total := countWords_add op
  omega

theorem countWords_rsched : countWords wordCanSucceed 0x22 = 16 ∧ countWords wordOutOfRange 0x22 = 240 ∧
    countWords wordIllegal 0x22 = 0 :=
  countWords_of_indexed (i := .rsched) (fun _ => rfl) (fun _ => decide_eq_true_iff) (by decide)

theorem countWords_sbox : countWords wordCanSucceed 0x30 = 8 ∧ countWords wordOutOfRange 0x30 = 248 ∧
    countWords wordIllegal 0x30 = 0 :=
  countWords_of_indexed (i := .sbox) (fun _ => rfl) (fun _ => decide_eq_true_iff) (by decide)

/-! ## Counting all words -/

/-- R79: a sum over the 256 codes, of which all unassigned ones add the same. -/
theorem sum_map_ops (f : Nat → Nat) {c : Nat} (h : ∀ op ∉ assignedOps, f op = c) :
    ((List.range 256).map f).sum = (assignedOps.map f).sum + 238 * c := by
  have lt_256 : ∀ op ∈ assignedOps, op < 256 := by decide
  have assigned : ((List.range 256).filter fun op => decide (op ∈ assignedOps)).Perm assignedOps := by
    rw [List.perm_ext_iff_of_nodup (List.nodup_range.filter _) (by decide)]
    simpa using lt_256
  have unassigned : ((List.range 256).filter fun op => decide (op ∉ assignedOps)).map f = List.replicate 238 c := by
    rw [List.map_eq_replicate_iff.mpr fun op hop => h op (by simpa using (List.mem_filter.mp hop).2),
      ← List.countP_eq_length_filter, countP_unassigned_ops]
  have split := List.filter_append_perm (fun op => decide (op ∈ assignedOps)) (List.range 256)
  simp only [← decide_not] at split
  rw [← (split.map f).sum_eq, List.map_append, List.sum_append, (assigned.map f).sum_eq, unassigned,
    List.sum_replicate, smul_eq_mul]

/-- R79: of the 18 assigned codes, two take an index. -/
theorem sum_map_assignedOps (a b c : Nat) :
    (assignedOps.map fun op => if op = 0x22 then b else if op = 0x30 then c else a).sum = 16 * a + b + c := by
  simp only [assignedOps, List.range', List.cons_append, List.nil_append, List.map_cons, List.map_nil, List.sum_cons,
    List.sum_nil, Nat.reduceAdd, Nat.reduceEqDiff, if_true, if_false]
  omega

/-- R81: a class of words is counted by what each of the 16 codes without an index, RSCHED, SBOX and each of the 238
unassigned codes add to it. -/
theorem sum_countWords {cls : Except DecodeError Instr → Bool} {a b c d : Nat}
    (ha : ∀ op ∈ assignedOps, op ≠ 0x22 → op ≠ 0x30 → countWords cls op = a) (hb : countWords cls 0x22 = b)
    (hc : countWords cls 0x30 = c) (hd : ∀ op ∉ assignedOps, countWords cls op = d) :
    ((List.range 256).map (countWords cls)).sum = 16 * a + b + c + 238 * d := by
  have each : ∀ op ∈ assignedOps, countWords cls op = if op = 0x22 then b else if op = 0x30 then c else a := by
    intro op hop
    split_ifs with h22 h30
    · rw [h22, hb]
    · rw [h30, hc]
    · exact ha op hop h22 h30
  rw [sum_map_ops _ hd, List.map_congr_left each, sum_map_assignedOps]

/-- No two positions of 0 hold different bits. -/
theorem not_copiesConflict_zero : ¬ CopiesConflict 0 := by
  rintro ⟨i, i', -, -, -, -, -, hne⟩
  exact hne ((pos_eq_pos_iff ..).mpr (by simp))

/-- Settles O4: the three sums, code by code; an operation with a legal index has no error on 0, and one with an illegal
index has that error on every operand. -/
theorem commandWordCounts : Obligations.CommandWordCounts := by
  refine ⟨fun _ _ => existsUnique_word_of_fields, ?succeed, ?outOfRange, ?illegal, fun i hl => ?legal, fun i hl v => ?bad⟩
  case succeed =>
    exact sum_countWords (fun _ h h22 h30 => (countWords_of_unindexed h h22 h30).1) countWords_rsched.1
      countWords_sbox.1 fun _ h => (countWords_of_unassigned h).1
  case outOfRange =>
    exact sum_countWords (fun _ h h22 h30 => (countWords_of_unindexed h h22 h30).2.1) countWords_rsched.2.1
      countWords_sbox.2.1 fun _ h => (countWords_of_unassigned h).2.1
  case illegal =>
    exact sum_countWords (fun _ h h22 h30 => (countWords_of_unindexed h h22 h30).2.2) countWords_rsched.2.2
      countWords_sbox.2.2 fun _ h => (countWords_of_unassigned h).2.2
  case legal =>
    obtain ⟨r, answer⟩ := exists_respond_ok (v := 0) hl (Nat.two_pow_pos _) fun h => not_copiesConflict_zero h.2
    exact ⟨r, (answers_iff _ _ _).mpr answer⟩
  case bad => exact (answers_iff _ _ _).mpr ((respond_eq_invalidWidthRange_iff i v).mpr (.inr hl))

end Sys2Proof.Machine
end

section
/-! PROOFS. What every operation does (spec/60_exceptions.md R200 to R207): it delivers its rule's response and changes
nothing else (`exec_eq`), and that response is one of four (`responds`). -/

namespace Sys2Proof.Machine

/-- Settles O13: every operation delivers what its rule responds. -/
theorem everyOperationEndsWithAResponse : Obligations.EveryOperationEndsWithAResponse :=
  fun i s => ⟨respond i s.opnd, exec_eq i s⟩

/-- Settles O12: delivering a response changes the response and the count of them. -/
theorem operationFrame : Obligations.OperationFrame := by
  intro i s t h
  rw [exec_eq, Host.Outcome.next.injEq] at h
  subst h
  exact ⟨rfl, rfl, rfl, rfl, rfl, rfl, rfl, respond i s.opnd, rfl⟩

/-- Settles O14: with none of the errors the response is a result, and a result has its declared width. -/
theorem everyOperationCompletes : Obligations.EveryOperationCompletes := by
  intro i s hl hw hc
  obtain ⟨r, answer⟩ := exists_respond_ok hl hw hc
  exact ⟨r, (exec_eq_iff i s _).mpr answer, toNat_lt_of_respond_ok answer⟩

/-- R204: ILLEGAL_COMMAND is no operation's response. -/
theorem respond_ne_illegalCommand (i : Instr) (v : Word) : respond i v ≠ .err .illegalCommand := by
  intro h
  cases responds i v with
  | badIndex _ e => cases e.symm.trans h
  | tooWide _ _ e => cases e.symm.trans h
  | ambiguous _ _ _ e => cases e.symm.trans h
  | result _ _ _ _ e _ => cases e.symm.trans h

/-- R200: code 3 is ILLEGAL_COMMAND's alone. -/
theorem eq_illegalCommand_of_status {r : Response} (h : r.status = 3) : r = .err .illegalCommand := by
  cases r with
  | ok v => exact absurd (show (0 : StatusCode) = 3 from h) (by decide)
  | err e =>
    cases e with
    | illegalCommand => rfl
    | invalidWidthRange => exact absurd h (by decide)
    | ambiguousInput => exact absurd h (by decide)

/-- Settles O18: the status of what an operation delivers is its response's, which is never ILLEGAL_COMMAND. -/
theorem statusCodes : Obligations.StatusCodes := by
  refine ⟨fun _ => rfl, rfl, rfl, rfl, fun i s t h hport => ?_⟩
  rw [exec_eq, Host.Outcome.next.injEq] at h
  subst h
  rw [State.deliver_statusPort, Option.some.injEq] at hport
  exact respond_ne_illegalCommand i s.opnd (eq_illegalCommand_of_status hport)

/-- Settles O19: the ports read what was delivered last. -/
theorem errorCarriesNoResult : Obligations.ErrorCarriesNoResult := by
  refine ⟨fun s e v h => ?_, fun _ _ => rfl, fun _ _ => ⟨rfl, rfl⟩⟩
  rw [State.deliver_response, Option.some.injEq] at h
  cases h

end Sys2Proof.Machine
end

section
/-! PROOFS. The interface (spec/20_memory.md R54, R58, spec/70_reset_and_hazards.md R230 to R232): what each kind of step
does, and that every step and every operation of the host keeps the interface consistent. -/

namespace Sys2Proof.Machine

/-! ## The three kinds of step -/

/-- R230: under reset a step loses every outstanding request. -/
theorem step_of_resetAsserted {s : State} (hr : s.resetAsserted = true) : step s = .next s.dropAll := by
  rcases step_cases s with ⟨-, hstep⟩ | ⟨hr', -⟩ | ⟨hr', -⟩
  · exact hstep
  · simp [hr] at hr'
  · simp [hr] at hr'

/-- R22: with no request to serve a step is idle. -/
theorem step_of_nextRequest_none {s : State} (hr : s.resetAsserted = false) (hn : s.nextRequest = none) :
    step s = .next s.idle := by
  rcases step_cases s with ⟨hr', -⟩ | ⟨-, -, hstep⟩ | ⟨-, q, rest, hsome, -⟩
  · simp [hr] at hr'
  · exact hstep
  · simp [hn] at hsome

/-- R232: the first request of a block that serves nobody else is answered, and then nothing is outstanding. -/
theorem step_issue {s : State} (q : Request) (hr : s.resetAsserted = false) (ho : s.outstanding = []) :
    ∃ t : State, step (s.issue q) = .next t ∧ t.onPorts = q ∧ t.response = some (decodeAndRun q.cmd q.opnd) ∧
      t.outstanding = [] := by
  have lone : (s.issue q).outstanding = [q] := by rw [State.issue_outstanding _ _ hr, ho, List.nil_append]
  have hr' : (s.issue q).resetAsserted = false := (State.issue_resetAsserted _ _).trans hr
  exact ⟨_, stepAnswersDecodeAndRun _ _ _ hr' (nextRequest_single _ _ lone), rfl, rfl, rfl⟩

/-- Settles O7: what `step` answers in each of its four cases. -/
theorem stepRunsTheDecodedRequest : Obligations.StepRunsTheDecodedRequest := by
  refine ⟨fun s q rest i hr hn hd => ?runs, fun s q rest why hr hn hd => ?illegal, fun s hr ho => ?idle,
    fun s hr => step_of_resetAsserted hr⟩
  case runs => rw [step_of_nextRequest hr hn, answerTo, hd, exec_eq, State.serve_opnd]
  case illegal => rw [step_of_nextRequest hr hn, answerTo, hd]
  case idle => exact step_of_nextRequest_none hr ((nextRequest_eq_none_iff s).mpr ho)

/-- Settles O11: which kind of step it is does not depend on the response, and each kind replaces it. -/
theorem stepIgnoresTheLastResponse : Obligations.StepIgnoresTheLastResponse := by
  intro s r
  rcases step_cases s with ⟨hr, hstep⟩ | ⟨hr, hn, hstep⟩ | ⟨hr, q, rest, hn, hstep⟩
  · exact (step_of_resetAsserted hr).trans hstep.symm
  · exact (step_of_nextRequest_none hr hn).trans hstep.symm
  · exact (step_of_nextRequest hr hn).trans hstep.symm

/-! ## Consistency -/

/-- With no response on the ports, and nothing outstanding under reset, the interface is consistent. -/
theorem State.Inv.of_no_response {s : State} (h : s.response = none) (ho : s.resetAsserted = true → s.outstanding = []) :
    s.Inv := by
  refine ⟨fun r hr => ?_, fun hr => ⟨ho hr, h⟩⟩
  rw [h] at hr
  cases hr

/-- Settles O20: a step under reset and an idle step leave no response; any other delivers `decodeAndRun` of the request
it puts on the ports, and leaves reset released. -/
theorem stepKeepsTheInterfaceConsistent : Obligations.StepKeepsTheInterfaceConsistent := by
  intro s t _ hstep
  rcases step_cases s with ⟨-, h⟩ | ⟨hr, -, h⟩ | ⟨hr, q, rest, -, h⟩ <;>
    obtain rfl := Host.Outcome.next.inj (h.symm.trans hstep)
  · exact .of_no_response rfl fun _ => rfl
  · exact .of_no_response rfl fun hr' => absurd (hr.symm.trans hr') (by decide)
  · rw [answerTo_eq_decodeAndRun]
    exact ⟨fun r hresp => (Option.some.inj hresp).symm, fun hr' => absurd (hr.symm.trans hr') (by decide)⟩

/-- Settles O21: nothing is outstanding or delivered after reset. -/
theorem resetIsConsistent : Obligations.ResetIsConsistent := .of_no_response rfl fun _ => rfl

/-- R230: a request issued keeps the interface consistent: under reset it is not accepted. -/
theorem State.Inv.issue {s : State} (h : s.Inv) (q : Request) : (s.issue q).Inv := by
  cases hr : s.resetAsserted with
  | true => rwa [State.issue_refused _ _ hr]
  | false =>
    obtain ⟨answer, -⟩ := h
    refine ⟨by simpa using answer, fun hr' => ?_⟩
    rw [State.issue_resetAsserted, hr] at hr'
    cases hr'

/-- Settles O22: an issued request touches no port, asserting reset empties the interface, and releasing it changes the
line alone. -/
theorem hostKeepsTheInterfaceConsistent : Obligations.HostKeepsTheInterfaceConsistent := by
  intro s q h
  have ⟨answer, _⟩ := h
  exact ⟨h.issue q, .of_no_response rfl fun _ => rfl, answer, fun hr => absurd hr (by simp)⟩

/-! ## Reset -/

/-- R230: nothing is answered while reset is asserted. -/
theorem answered_of_resetAsserted (n : Nat) {s : State} (hr : s.resetAsserted = true) : answered n s = [] := by
  induction n generalizing s with
  | zero => rfl
  | succ n ih =>
    rw [answered, step_of_resetAsserted hr]
    exact ih hr

/-- Settles O27: reset drops what is outstanding and every step under it answers nothing; released, the block serves a
lone request as ever. -/
theorem resetLosesWhatIsOutstanding : Obligations.ResetLosesWhatIsOutstanding := by
  intro s q
  exact ⟨rfl, rfl, State.issue_refused _ _ rfl, fun n => answered_of_resetAsserted n rfl, step_issue q rfl rfl⟩

/-- Settles O28: after reset the block is released, with nothing outstanding, and serves a lone request. -/
theorem stateAfterReset : Obligations.StateAfterReset := by
  refine ⟨rfl, rfl, rfl, rfl, fun q => ?_⟩
  obtain ⟨t, hstep, hports, hresponse, -⟩ := step_issue (s := State.reset) q rfl rfl
  exact ⟨t, hstep, hports, hresponse⟩

end Sys2Proof.Machine
end

section
/-! PROOFS. Service over many steps (spec/20_memory.md section 4, spec/70_reset_and_hazards.md R236,
spec/93_implementation_defined.md U2). Outside reset a step takes one request from its place among the outstanding ones
(`nextRequest_eq_some`) and answers it. -/

namespace Sys2Proof.Machine

/-! ## One turn -/

theorem ofRequester_append (h : Nat) (qs rs : List Request) :
    ofRequester h (qs ++ rs) = ofRequester h qs ++ ofRequester h rs := List.filter_append ..

theorem ofRequester_cons (h : Nat) (q : Request) (qs : List Request) :
    ofRequester h (q :: qs) = if q.requester = h then q :: ofRequester h qs else ofRequester h qs := by
  simp [ofRequester, List.filter_cons]

theorem ofRequester_eq_nil {h : Nat} {qs : List Request} (hne : ∀ r ∈ qs, r.requester ≠ h) : ofRequester h qs = [] := by
  simpa [ofRequester] using hne

/-- R236: each requester's outstanding requests are its own requests answered from the served one on, in order. -/
theorem ofRequester_outstanding {s : State} {q : Request} {rest : List Request} (hn : s.nextRequest = some (q, rest))
    (h : Nat) : ofRequester h s.outstanding = ofRequester h (q :: rest) := by
  obtain ⟨before, after, ho, rfl, hne⟩ := nextRequest_eq_some hn
  rw [ho, ofRequester_append, ofRequester_cons, ofRequester_cons, ofRequester_append]
  split
  next heq => rw [ofRequester_eq_nil (heq ▸ hne), List.nil_append, List.nil_append]
  next => rfl

/-- Settles O25: what is taken is the first of its requester and no request of any other. -/
theorem serviceKeepsEachRequestersOrder : Obligations.ServiceKeepsEachRequestersOrder := by
  intro s q rest hn
  refine ⟨?_, fun h hne => ?_⟩
  · rw [ofRequester_outstanding hn, ofRequester_cons, if_pos rfl]
  · rw [ofRequester_outstanding hn, ofRequester_cons, if_neg hne.symm]

/-- D20: the free choice can point at any of the outstanding requests. -/
theorem exists_turn_eq {q p : Request} {qs : List Request} (h : p ∈ q :: qs) : ∃ k, turn k q qs = p.requester := by
  induction qs generalizing q with
  | nil => exact ⟨0, congrArg Request.requester (List.mem_singleton.mp h).symm⟩
  | cons q' qs ih =>
    rcases List.mem_cons.mp h with rfl | hmem
    · exact ⟨0, rfl⟩
    · obtain ⟨k, hk⟩ := ih hmem
      exact ⟨k + 1, hk⟩

/-- U2: while the oldest request has patience left, the turn is the free choice's. -/
theorem dueRequester_of_waited_lt {patience waited : Nat} (h : waited < patience) (k : Nat) (q : Request)
    (qs : List Request) : dueRequester k patience waited q qs = turn k q qs := by
  cases qs with
  | nil => rfl
  | cons q' qs => exact if_neg (Nat.not_le.mpr h)

/-- Settles O26: the choice that points at the request, with patience left. -/
theorem anyRequesterMayHaveTheTurn : Obligations.AnyRequesterMayHaveTheTurn := by
  intro q qs p waited hp
  obtain ⟨k, hk⟩ := exists_turn_eq hp
  exact ⟨k, waited + 1, (dueRequester_of_waited_lt (Nat.lt_succ_self waited) k q qs).trans hk⟩

/-! ## Serving all that is outstanding -/

/-- The state after a step that has answered `q` and left `rest` outstanding. -/
def State.afterAnswer (s : State) (q : Request) (rest : List Request) : State :=
  (s.serve q rest).deliver (decodeAndRun q.cmd q.opnd)

@[simp] theorem State.afterAnswer_outstanding (s : State) (q : Request) (rest : List Request) :
    (s.afterAnswer q rest).outstanding = rest := rfl
@[simp] theorem State.afterAnswer_draw (s : State) (q : Request) (rest : List Request) :
    (s.afterAnswer q rest).draw = s.draw + 1 := rfl
@[simp] theorem State.afterAnswer_waited (s : State) (q : Request) (rest : List Request) :
    (s.afterAnswer q rest).waited = s.waitedAfter q := rfl

theorem outstanding_perm {s : State} {q : Request} {rest : List Request} (hn : s.nextRequest = some (q, rest)) :
    s.outstanding.Perm (q :: rest) := by
  obtain ⟨before, after, ho, rfl, -⟩ := nextRequest_eq_some hn
  rw [ho]
  exact List.perm_middle

section
variable {s : State} {q : Request} {rest : List Request} (hr : s.resetAsserted = false)
  (hn : s.nextRequest = some (q, rest))
include hr hn

theorem step_eq_afterAnswer : step s = .next (s.afterAnswer q rest) :=
  stepAnswersDecodeAndRun s q rest hr hn

theorem answered_succ (n : Nat) :
    answered (n + 1) s = (q, decodeAndRun q.cmd q.opnd) :: answered n (s.afterAnswer q rest) := by
  rw [answered, step_eq_afterAnswer hr hn]
  rfl

theorem runSteps_succ (n : Nat) : runSteps (n + 1) s = runSteps n (s.afterAnswer q rest) := by
  rw [runSteps, step_eq_afterAnswer hr hn]

end

/-- What holds when nothing is outstanding, and before each step that serves a request if it holds after it, holds in
every state outside reset. -/
theorem service_induction {P : State → Prop} (idle : ∀ s, s.resetAsserted = false → s.outstanding = [] → P s)
    (serve : ∀ s q rest, s.resetAsserted = false → s.nextRequest = some (q, rest) →
      s.outstanding.length = rest.length + 1 → P (s.afterAnswer q rest) → P s)
    (s : State) (hr : s.resetAsserted = false) : P s := by
  induction hlen : s.outstanding.length generalizing s with
  | zero => exact idle s hr (List.length_eq_zero_iff.mp hlen)
  | succ n ih =>
    cases hn : s.nextRequest with
    | none =>
      rw [(nextRequest_eq_none_iff s).mp hn] at hlen
      cases hlen
    | some served =>
      obtain ⟨q, rest⟩ := served
      have hrest : s.outstanding.length = rest.length + 1 := (outstanding_perm hn).length_eq
      exact serve s q rest hr hn hrest (ih _ hr (Nat.succ.inj (hrest.symm.trans hlen)))

/-- Settles O23: each step adds the request it serves, with `F` of it, in front of what the steps after it answer. -/
theorem eachRequestIsAnsweredOnce : Obligations.EachRequestIsAnsweredOnce := by
  refine service_induction (fun s _ ho => ?idle) (fun s q rest hr hn hlen ih => ?serve)
  case idle => simp [ho, answered]
  case serve =>
    rw [State.afterAnswer_outstanding] at ih
    obtain ⟨perm, responses, order⟩ := ih
    rw [hlen, answered_succ hr hn, List.map_cons]
    refine ⟨(perm.cons q).trans (outstanding_perm hn).symm, List.forall_mem_cons.mpr ⟨rfl, responses⟩, fun h => ?_⟩
    rw [ofRequester_outstanding hn, ofRequester_cons, ofRequester_cons, order]

/-- R70: as many steps as requests are outstanding leave none, and deliver as many responses. -/
theorem runSteps_outstanding : ∀ s : State, s.resetAsserted = false →
    ∃ t : State, runSteps s.outstanding.length s = .next t ∧ t.outstanding = [] ∧
      t.draw = s.draw + s.outstanding.length := by
  refine service_induction (fun s _ ho => ?idle) (fun s q rest hr hn hlen ih => ?serve)
  case idle => exact ⟨s, by simp [ho, runSteps]⟩
  case serve =>
    obtain ⟨t, hrun, hnone, hdraw⟩ := ih
    rw [State.afterAnswer_outstanding] at hrun hdraw
    rw [State.afterAnswer_draw] at hdraw
    exact ⟨t, by rw [hlen, runSteps_succ hr hn, hrun], hnone, by omega⟩

/-! ## A backlog that the host adds to -/

@[simp] theorem State.issueAll_nil (s : State) : s.issueAll [] = s := rfl

theorem State.issueAll_cons (s : State) (q : Request) (qs : List Request) :
    s.issueAll (q :: qs) = (s.issue q).issueAll qs := rfl

@[simp] theorem State.issueAll_resetAsserted (s : State) (qs : List Request) :
    (s.issueAll qs).resetAsserted = s.resetAsserted := by
  induction qs generalizing s with
  | nil => rfl
  | cons q qs ih => rw [State.issueAll_cons, ih, State.issue_resetAsserted]

@[simp] theorem State.issueAll_draw (s : State) (qs : List Request) : (s.issueAll qs).draw = s.draw := by
  induction qs generalizing s with
  | nil => rfl
  | cons q qs ih => rw [State.issueAll_cons, ih, State.issue_draw]

@[simp] theorem State.issueAll_waited (s : State) (qs : List Request) : (s.issueAll qs).waited = s.waited := by
  induction qs generalizing s with
  | nil => rfl
  | cons q qs ih => rw [State.issueAll_cons, ih, State.issue_waited]

/-- R230: accepted requests stand behind the outstanding ones. -/
theorem State.issueAll_outstanding {s : State} (hr : s.resetAsserted = false) (qs : List Request) :
    (s.issueAll qs).outstanding = s.outstanding ++ qs := by
  induction qs generalizing s with
  | nil => rw [State.issueAll_nil, List.append_nil]
  | cons q qs ih =>
    rw [State.issueAll_cons, ih ((State.issue_resetAsserted s q).trans hr), State.issue_outstanding s q hr,
      List.append_assoc, List.singleton_append]

theorem answeredAmid_cons {s : State} {q : Request} {qs rest : List Request} (hr : s.resetAsserted = false)
    (hn : (s.issueAll qs).nextRequest = some (q, rest)) (arrivals : List (List Request)) :
    answeredAmid (qs :: arrivals) s =
      (q, decodeAndRun q.cmd q.opnd) :: answeredAmid arrivals ((s.issueAll qs).afterAnswer q rest) := by
  rw [answeredAmid, step_eq_afterAnswer ((State.issueAll_resetAsserted s qs).trans hr) hn]
  rfl

/-- Of the outstanding requests `old ++ new`, the one served leaves all of `old`, or is one of `old` itself. -/
theorem nextRequest_append {s : State} {q : Request} {rest old new : List Request}
    (hn : s.nextRequest = some (q, rest)) (ho : s.outstanding = old ++ new) :
    ∃ old' new', rest = old' ++ new' ∧ old'.length ≤ old.length ∧ old.Subperm (q :: old') := by
  obtain ⟨before, after, hs, rfl, -⟩ := nextRequest_eq_some hn
  rw [ho] at hs
  rcases List.append_eq_append_iff.mp hs with ⟨mid, rfl, -⟩ | ⟨mid, rfl, hmid⟩
  · exact ⟨old, mid ++ after, List.append_assoc .., Nat.le_refl _, (List.sublist_cons_self q old).subperm⟩
  · cases mid with
    | nil =>
      refine ⟨before, after, rfl, by simp, ?_⟩
      rw [List.append_nil]
      exact (List.sublist_cons_self q before).subperm
    | cons q' mid =>
      obtain ⟨rfl, rfl⟩ := List.cons.inj hmid
      exact ⟨before ++ mid, new, (List.append_assoc ..).symm, by simp, List.perm_middle.subperm⟩

/-- U2: `n` steps answer the `old` requests, up to `m` of them, that stand first in a state outside reset whose counts are
`draw` and `waited`, whatever the host goes on to issue. -/
def ServedWithin (m draw waited n : Nat) : Prop :=
  ∀ (s : State) (old new : List Request) (arrivals : List (List Request)), s.resetAsserted = false →
    s.draw = draw → s.waited = waited → s.outstanding = old ++ new → old.length ≤ m → n ≤ arrivals.length →
    old.Subperm ((answeredAmid arrivals s).map Prod.fst)

theorem servedWithin_zero (draw waited : Nat) : ServedWithin 0 draw waited 0 := by
  intro s old new arrivals _ _ _ _ hlen _
  rw [List.length_eq_zero_iff.mp (Nat.le_zero.mp hlen)]
  exact List.nil_subperm

theorem ServedWithin.mono {m draw waited n n' : Nat} (h : ServedWithin m draw waited n) (hle : n ≤ n') :
    ServedWithin m draw waited n' :=
  fun s old new arrivals hr hd hw ho hlen hn => h s old new arrivals hr hd hw ho hlen (hle.trans hn)

/-- U2: a request other than the oldest is served only while the oldest has patience left. -/
theorem waited_lt_patience {s : State} {p q : Request} {ps rest : List Request} (ho : s.outstanding = p :: ps)
    (hn : s.nextRequest = some (q, rest)) (hne : p ≠ q) : s.waited < Config.patience (s.draw - s.waited) := by
  by_contra hle
  rw [nextRequest_of_patience_le ho (Nat.not_lt.mp hle)] at hn
  cases hn
  exact hne rfl

/-- U2: one step more, when `n` steps are enough after the oldest request has been served, and also after another has been
while the oldest still had patience. -/
theorem ServedWithin.succ {m draw waited n : Nat} (served : ServedWithin m (draw + 1) 0 n)
    (passedOver : waited < Config.patience (draw - waited) → ServedWithin (m + 1) (draw + 1) (waited + 1) n) :
    ServedWithin (m + 1) draw waited (n + 1) := by
  rintro s old new arrivals hr rfl rfl ho hlen hn
  obtain ⟨qs, arrivals, rfl⟩ := List.exists_cons_of_length_pos (Nat.zero_lt_of_lt hn)
  replace hn : n ≤ arrivals.length := Nat.le_of_succ_le_succ hn
  cases old with
  | nil => exact List.nil_subperm
  | cons p ps =>
    have hr' : (s.issueAll qs).resetAsserted = false := (State.issueAll_resetAsserted s qs).trans hr
    have ho' : (s.issueAll qs).outstanding = p :: ps ++ (new ++ qs) := by
      rw [State.issueAll_outstanding hr, ho, List.append_assoc]
    obtain ⟨⟨q, rest⟩, hnext⟩ : ∃ served, (s.issueAll qs).nextRequest = some served := by
      rw [← Option.isSome_iff_exists, Option.isSome_iff_ne_none, Ne, nextRequest_eq_none_iff, ho']
      exact List.cons_ne_nil _ _
    rw [answeredAmid_cons hr hnext, List.map_cons]
    rcases nextRequest_oldest ho' hnext with ⟨rfl, rfl, hwaited⟩ | ⟨_, _, _, _, hne, hwaited⟩
    · exact (List.subperm_cons q).mpr
        (served _ ps (new ++ qs) arrivals hr' (by simp) hwaited rfl (Nat.le_of_succ_le_succ hlen) hn)
    · have left := waited_lt_patience ho' hnext fun h => hne p (List.mem_cons_self ..) (congrArg _ h)
      rw [State.issueAll_draw, State.issueAll_waited] at left
      obtain ⟨old', new', rfl, hlen', hold⟩ := nextRequest_append hnext ho'
      have rest := passedOver left ((s.issueAll qs).afterAnswer q (old' ++ new')) old' new' arrivals hr' (by simp)
        (by simp [hwaited]) rfl (hlen'.trans hlen) hn
      exact hold.trans ((List.subperm_cons q).mpr rest)

/-- U2: some number of steps is enough, by induction on the number of requests and, for the oldest, on the patience it has
left. -/
theorem exists_servedWithin (m draw waited : Nat) : ∃ n, ServedWithin m draw waited n := by
  induction m generalizing draw waited with
  | zero => exact ⟨0, servedWithin_zero draw waited⟩
  | succ m ihm =>
    obtain ⟨n, served⟩ := ihm (draw + 1) 0
    induction hleft : Config.patience (draw - waited) - waited generalizing draw waited n with
    | zero => exact ⟨n + 1, served.succ fun h => absurd h (by omega)⟩
    | succ left ihl =>
      obtain ⟨n', served'⟩ := ihm (draw + 1 + 1) 0
      obtain ⟨k, passedOver⟩ := ihl (draw + 1) (waited + 1) n' served' (by rw [Nat.add_sub_add_right]; omega)
      exact ⟨max n k + 1, (served.mono (Nat.le_max_left n k)).succ fun _ => passedOver.mono (Nat.le_max_right n k)⟩

/-- Settles O24: with no arrivals every step answers one request; with any arrivals, a number of steps that is enough for
as many requests as are outstanding now. -/
theorem backlogIsServed : Obligations.BacklogIsServed := by
  intro s hr
  obtain ⟨n, served⟩ := exists_servedWithin s.outstanding.length s.draw s.waited
  exact ⟨runSteps_outstanding s hr, n, fun arrivals hn =>
    served s s.outstanding [] arrivals hr rfl rfl (List.append_nil _).symm (Nat.le_refl _) hn.ge⟩

end Sys2Proof.Machine
end

section
/-! PROOFS. The laws of the inverse permutations (spec/41_inverses.md R138 to R144). IPINV and FPINV are FP and IP; EINV
succeeds on the words E answers; selecting and scattering by one table undo each other on the positions it names, which
are all but the parity positions for PC1 and all but eight for PC2. -/

namespace Sys2Proof.Machine

/-- R15: a width check answers OK within the width, with what the rule computes. -/
theorem checked_eq_ok_iff {w : Nat} {v u : Word} {f : Word → Word} :
    checked w v f = .ok u ↔ v.toNat < 2 ^ w ∧ f v = u := by
  by_cases hv : v.toNat < 2 ^ w
  · simp [checked_of_fits f hv, hv]
  · simp [checked_of_not_fits f hv, hv]

/-! ## IPINV, FPINV and EINV -/

/-- Settles O43: IPINV's rule is FP's and FPINV's is IP's, which undo each other. -/
theorem ipinvAndFpinvLaws : Obligations.IpinvAndFpinvLaws := by
  intro x
  have laws := ipAndFpAreInverse x
  simp only [answers_iff] at laws
  simp only [answers_iff, respond_ipinv, respond_fpinv]
  obtain ⟨fpUndoesIp, ipUndoesFp⟩ := laws
  exact ⟨fpUndoesIp, ipUndoesFp, ipUndoesFp, fpUndoesIp⟩

/-- R135: EINV answers OK on a word of its width whose copies agree. -/
theorem respond_einv_eq_ok_iff {v x : Word} :
    respond .einv v = .ok x ↔ v.toNat < 2 ^ 48 ∧ ¬ CopiesConflict v ∧ einvFn v = x := by
  constructor
  · intro h
    cases responds .einv v with
    | badIndex _ e => cases e.symm.trans h
    | tooWide _ _ e => cases e.symm.trans h
    | ambiguous _ _ _ e => cases e.symm.trans h
    | result _ hw hc _ _ _ =>
      have hc' : ¬ CopiesConflict v := fun h' => hc ⟨rfl, h'⟩
      exact ⟨hw, hc', Response.ok.inj ((respond_einv_of_agree hw hc').symm.trans h)⟩
  · rintro ⟨hw, hc, rfl⟩
    exact respond_einv_of_agree hw hc

/-- Settles O44: E expands what EINV reads, and EINV reads what E expanded. -/
theorem einvSucceedsOnTheImageOfE : Obligations.EinvSucceedsOnTheImageOfE := by
  intro v x
  have e : respond .e x = .ok v ↔ x.toNat < 2 ^ 32 ∧ permute Tables.e 32 x = v := checked_eq_ok_iff
  rw [answers_iff, answers_iff, respond_einv_eq_ok_iff, e]
  constructor
  · rintro ⟨hv, hc, rfl⟩
    exact ⟨einvFn_lt v, permute_e_einvFn hv hc⟩
  · rintro ⟨hx, rfl⟩
    exact ⟨(selects_e x).1, not_copiesConflict_permute_e x, einvFn_permute_e hx⟩

/-! ## PC1 and PC1INV -/

/-- R105: PC1 names every position but the parity positions. -/
theorem mem_pc1 {p : Nat} (h1 : 1 ≤ p) (h2 : p ≤ 64) (h8 : p % 8 ≠ 0) : p ∈ Tables.pc1 := by
  have named : ∀ p ∈ List.range' 1 64, p % 8 ≠ 0 → p ∈ Tables.pc1 := by decide
  exact named p (List.mem_range'_1.mpr ⟨h1, by omega⟩) h8

/-- R12: what a table selects depends on the positions it names. -/
theorem permute_congr {T : List Nat} {w : Nat} {u v : Word} (hT : T.length ≤ 64)
    (h : ∀ p ∈ T, pos u w p = pos v w p) : permute T w u = permute T w v := by
  obtain ⟨hu, selU⟩ := selects_permute T w u hT
  obtain ⟨hv, selV⟩ := selects_permute T w v hT
  refine eq_of_pos hu hv fun i h1 h2 => ?_
  rw [selU i h1 h2, selV i h1 h2, h _ (entry_mem T i h1 h2)]

/-- R136: the recomputed word depends on the data bits. -/
theorem parityFn_congr {u v : Word} (h : ∀ i, i < 64 → i % 8 ≠ 0 → u.getLsbD i = v.getLsbD i) :
    parityFn u = parityFn v := by
  refine BitVec.eq_of_getLsbD_eq fun i hi => ?_
  rw [parityFn_getLsbD u i hi, parityFn_getLsbD v i hi]
  split
  next h8 =>
    have data : slice u (i + 7) (i + 1) = slice v (i + 7) (i + 1) := by
      refine BitVec.eq_of_getLsbD_eq fun k _ => ?_
      rw [slice_getLsbD _ _ _ _ (by omega), slice_getLsbD _ _ _ _ (by omega)]
      by_cases hk : k ≤ i + 7 - (i + 1)
      · rw [h (i + 1 + k) (by omega) (by omega)]
      · rw [decide_eq_false hk, Bool.false_and, Bool.false_and]
    rw [data]
  next h8 => exact h i hi h8

/-- R142: PC1 does not see the recomputation: it names no parity position. -/
theorem permute_pc1_parityFn (x : Word) : permute Tables.pc1 64 (parityFn x) = permute Tables.pc1 64 x := by
  refine permute_congr (by decide) fun p hp => ?_
  have inRange := pc1_positions.2 p hp
  have data := pc1_mod_eight_ne_zero p hp
  rw [pos_eq_pos_iff, parityFn_getLsbD _ _ (by omega), if_neg (by omega)]

/-- R142: PC1 undoes PC1INV. -/
theorem permute_pc1_pc1invFn {v : Word} (hv : v.toNat < 2 ^ 56) : permute Tables.pc1 64 (pc1invFn v) = v :=
  (permute_pc1_parityFn _).trans (permute_scatter v (by decide) (by decide) pc1_positions hv)

/-- R142: PC1INV after PC1 recomputes the parity: PC1 loses the parity bits alone. -/
theorem pc1invFn_permute_pc1 (k : Word) : pc1invFn (permute Tables.pc1 64 k) = parityFn k := by
  refine parityFn_congr fun i hi h8 => ?_
  rw [scatter_permute_getLsbD k (by decide) (by decide) pc1_positions hi,
    decide_eq_true (mem_pc1 (by omega) (by omega) (by omega)), Bool.true_and]

/-- R136: a word is its own recomputation exactly when its bytes are all odd. -/
theorem parityFn_eq_self_iff (x : Word) :
    parityFn x = x ↔ ∀ k, 1 ≤ k → k ≤ 8 → popcount (byteOf x k) % 2 = 1 :=
  ⟨fun h => h ▸ popcount_byteOf_parityFn x, parityFn_eq_self⟩

theorem answers_pc1 (k : Word) : Answers .pc1 k (.ok (permute Tables.pc1 64 k)) :=
  (answers_iff _ _ _).mpr (checked_64 _ _)

theorem answers_pc1inv {v : Word} (hv : v.toNat < 2 ^ 56) : Answers .pc1inv v (.ok (pc1invFn v)) :=
  (answers_iff _ _ _).mpr (checked_of_fits _ hv)

/-- Settles O46: PC1 undoes PC1INV, and PC1INV after PC1 is PARITY. -/
theorem pc1invLaws : Obligations.Pc1invLaws := by
  refine ⟨fun v hv => ⟨_, answers_pc1inv hv, ?undone⟩, fun k => ⟨_, parityFn k, answers_pc1 k, ?parity, answers_parity k,
    parityFn_eq_self_iff k⟩⟩
  case undone =>
    have pc1 := answers_pc1 (pc1invFn v)
    rwa [permute_pc1_pc1invFn hv] at pc1
  case parity =>
    have pc1inv := answers_pc1inv (selects_permute Tables.pc1 64 k (by decide)).1
    rwa [pc1invFn_permute_pc1] at pc1inv

/-! ## PC2 and PC2INV -/

/-- C1: the bits of DROP2 are those of the positions PC2 leaves out. -/
theorem getLsbD_not_drop2 {k : Nat} (hk : k < 56) :
    (~~~0x804480242004 : Word).getLsbD k = decide (56 - k ∈ Tables.pc2) := by
  have bits : ∀ k ∈ List.range 56, (~~~0x804480242004 : Word).getLsbD k = decide (56 - k ∈ Tables.pc2) := by decide
  exact bits k (List.mem_range.mpr hk)

/-- R144: PC2INV after PC2 clears what PC2 leaves out. -/
theorem scatter_pc2_permute_pc2 {c : Word} (hc : c.toNat < 2 ^ 56) :
    scatter Tables.pc2 56 (permute Tables.pc2 56 c) = c &&& ~~~0x804480242004 := by
  refine BitVec.eq_of_getLsbD_eq fun k _ => ?_
  rw [BitVec.getLsbD_and]
  by_cases hk : k < 56
  · rw [scatter_permute_getLsbD c (by decide) (by decide) pc2_positions hk, getLsbD_not_drop2 hk, Bool.and_comm]
  · have hlt := (scatters_scatter Tables.pc2 56 (permute Tables.pc2 56 c) (by decide) pc2_positions.1 pc2_positions.2).1
    rw [(toNat_lt_two_pow_iff _ 56).mp hlt k (Nat.le_of_not_lt hk),
      (toNat_lt_two_pow_iff c 56).mp hc k (Nat.le_of_not_lt hk), Bool.false_and]

theorem answers_pc2 {c : Word} (hc : c.toNat < 2 ^ 56) : Answers .pc2 c (.ok (permute Tables.pc2 56 c)) :=
  (answers_iff _ _ _).mpr (checked_of_fits _ hc)

theorem answers_pc2inv {v : Word} (hv : v.toNat < 2 ^ 48) : Answers .pc2inv v (.ok (scatter Tables.pc2 56 v)) :=
  (answers_iff _ _ _).mpr (checked_of_fits _ hv)

/-- Settles O47: selecting by PC2 undoes scattering by it, and the other way round the positions it names are kept. -/
theorem pc2invLaws : Obligations.Pc2invLaws := by
  refine ⟨fun v hv => ⟨_, answers_pc2inv hv, ?undone⟩, fun c hc => ⟨_, answers_pc2 hc, ?cleared⟩⟩
  case undone =>
    have pc2 := answers_pc2 (scatters_scatter Tables.pc2 56 v (by decide) pc2_positions.1 pc2_positions.2).1
    rwa [permute_scatter v (by decide) (by decide) pc2_positions hv] at pc2
  case cleared =>
    have pc2inv := answers_pc2inv (selects_permute Tables.pc2 56 c (by decide)).1
    rwa [scatter_pc2_permute_pc2 hc] at pc2inv

end Sys2Proof.Machine
end

section
/-! PROOFS. LS and RS against each other (spec/42_rotate.md R163, R165). Rotations of the halves whose places add up to a
multiple of 28 undo each other, and a half of the result is read from the same half of the operand. -/

namespace Sys2Proof.Machine

section
variable {f g : Word → Word} {m n : Nat} (hf : RotatesHalves f m)
include hf

/-- R163, R165: `b` rotations by `g` take back `a` rotations by `f` when together they come round. -/
theorem RotatesHalves.iterate_iterate_eq_self (hg : RotatesHalves g n) {a b c : Nat} (h : b * n + a * m = 28 * c)
    {v : Word} (hv : v.toNat < 2 ^ 56) : g^[b] (f^[a] v) = v := by
  have hlt := hg.iterate_lt b (hf.iterate_lt a hv)
  refine BitVec.eq_of_getLsbD_eq fun k _ => ?_
  by_cases hk : k < 56
  · rw [hg.iterate_getLsbD b _ hk, hf.iterate_getLsbD a v (bitSource_lt hk _), bitSource_bitSource, h, bitSource_mul_28]
  · rw [(toNat_lt_two_pow_iff _ 56).mp hlt k (Nat.le_of_not_lt hk),
      (toNat_lt_two_pow_iff v 56).mp hv k (Nat.le_of_not_lt hk)]

/-- R163: the C half of the result is the C half of the operand, rotated. -/
theorem RotatesHalves.halfC_getLsbD (v : Word) {k : Nat} (hk : k < 28) :
    (halfC (f v)).getLsbD k = (halfC v).getLsbD ((k + m) % 28) := by
  have source : bitSource m (28 + k) = 28 + (k + m) % 28 := by unfold bitSource; omega
  rw [Machine.halfC_getLsbD, Machine.halfC_getLsbD, hf.getLsbD v _ (by omega), source, decide_eq_true hk,
    decide_eq_true (Nat.mod_lt _ (by decide))]

/-- R163: and so is the D half. -/
theorem RotatesHalves.halfD_getLsbD (v : Word) {k : Nat} (hk : k < 28) :
    (halfD (f v)).getLsbD k = (halfD v).getLsbD ((k + m) % 28) := by
  have source : bitSource m k = (k + m) % 28 := by unfold bitSource; omega
  rw [Machine.halfD_getLsbD, Machine.halfD_getLsbD, hf.getLsbD v _ (by omega), source, decide_eq_true hk,
    decide_eq_true (Nat.mod_lt _ (by decide))]

/-- R163: a half of the result depends on the same half of the operand. -/
theorem RotatesHalves.halves_congr (v v' : Word) :
    (halfC v = halfC v' → halfC (f v) = halfC (f v')) ∧ (halfD v = halfD v' → halfD (f v) = halfD (f v')) := by
  constructor <;> refine fun h => BitVec.eq_of_getLsbD_eq fun k _ => ?_
  · by_cases hk : k < 28
    · rw [hf.halfC_getLsbD v hk, hf.halfC_getLsbD v' hk, h]
    · rw [Machine.halfC_getLsbD, Machine.halfC_getLsbD, decide_eq_false hk, Bool.false_and, Bool.false_and]
  · by_cases hk : k < 28
    · rw [hf.halfD_getLsbD v hk, hf.halfD_getLsbD v' hk, h]
    · rw [Machine.halfD_getLsbD, Machine.halfD_getLsbD, decide_eq_false hk, Bool.false_and, Bool.false_and]

end

/-- R163: RS undoes LS. -/
theorem rsFn_lsFn {v : Word} (hv : v.toNat < 2 ^ 56) : rsFn (lsFn v) = v :=
  rotatesHalves_lsFn.iterate_iterate_eq_self rotatesHalves_rsFn (a := 1) (b := 1) (c := 1) rfl hv

/-- R163: LS undoes RS. -/
theorem lsFn_rsFn {v : Word} (hv : v.toNat < 2 ^ 56) : lsFn (rsFn v) = v :=
  rotatesHalves_rsFn.iterate_iterate_eq_self rotatesHalves_lsFn (a := 1) (b := 1) (c := 1) rfl hv

theorem answers_ls {v : Word} (hv : v.toNat < 2 ^ 56) : Answers .ls v (.ok (lsFn v)) :=
  (answers_iff _ _ _).mpr (respond_ls hv)

theorem answers_rs {v : Word} (hv : v.toNat < 2 ^ 56) : Answers .rs v (.ok (rsFn v)) :=
  (answers_iff _ _ _).mpr (respond_rs hv)

/-- R160, R161: LS and RS are a width check and then a rotation of the halves. -/
theorem exists_rotatesHalves {i : Instr} (hi : i ∈ [Instr.ls, .rs]) :
    ∃ f m, RotatesHalves f m ∧ respond i = fun v => checked 56 v f := by
  rcases List.mem_pair.mp hi with rfl | rfl
  · exact ⟨lsFn, 27, rotatesHalves_lsFn, rfl⟩
  · exact ⟨rsFn, 1, rotatesHalves_rsFn, rfl⟩

/-- Settles O51: one rotation each way comes round, and each half is rotated on its own. -/
theorem lsAndRsAreInverse : Obligations.LsAndRsAreInverse := by
  refine ⟨fun v hv => ?inverse, fun i hi v v' u u' hu hu' => ?halves⟩
  case inverse =>
    have rsUndoesLs := answers_rs (lsFn_lt v)
    have lsUndoesRs := answers_ls (rsFn_lt v)
    rw [rsFn_lsFn hv] at rsUndoesLs
    rw [lsFn_rsFn hv] at lsUndoesRs
    exact ⟨⟨_, answers_ls hv, rsUndoesLs⟩, _, answers_rs hv, lsUndoesRs⟩
  case halves =>
    obtain ⟨f, m, hf, hrule⟩ := exists_rotatesHalves hi
    rw [answers_iff, hrule, checked_eq_ok_iff] at hu hu'
    obtain ⟨-, rfl⟩ := hu
    obtain ⟨-, rfl⟩ := hu'
    exact hf.halves_congr v v'

/-- Settles O53: the walk through `r` rounds is `cum r` rotations to the left; as many to the right, or what is missing to
28 to the left, which is what the rounds after `r` are, take it back. -/
theorem cumulativeRotation : Obligations.CumulativeRotation := by
  refine ⟨by decide, fun r v _ h16 hv => ?_⟩
  have hcum : Tables.cum r ≤ 28 := cum_monotone h16
  have hu := rotatesHalves_lsFn.iterate_lt (Tables.cum r) hv
  have left : lsFn^[28 - Tables.cum r] (lsFn^[Tables.cum r] v) = v :=
    rotatesHalves_lsFn.iterate_iterate_eq_self rotatesHalves_lsFn (c := 27) (by omega) hv
  have right : rsFn^[Tables.cum r] (lsFn^[Tables.cum r] v) = v :=
    rotatesHalves_lsFn.iterate_iterate_eq_self rotatesHalves_rsFn (c := Tables.cum r) (by omega) hv
  have walk : ScheduleWalk 1 r v (lsFn^[Tables.cum r] v) := by
    simpa [Tables.cum] using scheduleWalk_iterate (r := 0) (n := r) (by omega) hv
  have walkBack := scheduleWalk_iterate (r := r) (n := 16 - r) (by omega) hu
  rw [Nat.add_sub_cancel' h16, show Tables.cum 16 = 28 from rfl, left] at walkBack
  have leftBack := repeats_ls (28 - Tables.cum r) hu
  have rightBack := repeats_rs (Tables.cum r) hu
  rw [left] at leftBack
  rw [right] at rightBack
  exact ⟨_, walk, repeats_ls (Tables.cum r) hv, leftBack, rightBack, walkBack⟩

end Sys2Proof.Machine
end

section
/-! PROOFS. SBOXES against SBOX (spec/43_sbox.md R183): the lanes of SBOXES are the lookups of the operand's slices. -/

namespace Sys2Proof.Machine

/-- R183: a group is a 6-bit value, so SBOX answers it. -/
theorem answers_sbox_group (v : Word) {g : Nat} (h1 : 1 ≤ g) (h8 : g ≤ 8) :
    Answers (.sbox g) (sboxGroup v g) (.ok (sboxFn g (sboxGroup v g))) := by
  have hlt : (sboxGroup v g).toNat < 2 ^ 6 := by rw [sboxGroup_toNat]; exact Nat.mod_lt _ (by decide)
  exact (answers_iff _ _ _).mpr (respond_sbox h1 h8 hlt)

/-- Settles O57: nibble `g` of SBOXES' answer is the lookup of group `g`, which is a slice of the operand. -/
theorem sboxesIsEightSboxRequests : Obligations.SboxesIsEightSboxRequests := by
  intro v hv
  refine ⟨sboxesFn v, (answers_iff _ _ _).mpr (respond_sboxes hv), fun g h1 h8 => ?_⟩
  rw [← sboxGroup_eq_slice v g h1 h8, sboxesFn_nibble v g h1 h8]
  exact answers_sbox_group v h1 h8

end Sys2Proof.Machine
end

section
/-! PROOFS. A word as bytes (spec/20_memory.md R51): the bytes read back are placed 8 bits apart, the last sent lowest. -/

namespace Sys2Proof.Machine

/-- R11: a byte set below a word. -/
theorem concat_byte_getLsbD (a : Word) (b : BitVec 8) {k : Nat} (hk : k < 64) :
    (concat a (b.setWidth 64) 8).getLsbD k = if k < 8 then b.getLsbD k else a.getLsbD (k - 8) := by
  rw [concat, BitVec.getLsbD_or, BitVec.getLsbD_shiftLeft, BitVec.getLsbD_setWidth]
  by_cases h8 : k < 8
  · simp [h8, hk]
  · simp [h8, hk, BitVec.getLsbD_of_ge b k (Nat.le_of_not_lt h8)]

/-- R51: bit `k` of the word read back is a bit of byte `k / 8`, counted from the last one sent. -/
theorem deserialise_getLsbD (bs : List (BitVec 8)) {k : Nat} (hk : k < 64) :
    (deserialise bs).getLsbD k = (bs.reverse[k / 8]?.getD 0).getLsbD (k % 8) := by
  induction bs using List.reverseRecOn generalizing k with
  | nil => simp [deserialise]
  | append_singleton bs b ih =>
    have read : deserialise (bs ++ [b]) = concat (deserialise bs) (b.setWidth 64) 8 := List.foldl_append ..
    rw [read, concat_byte_getLsbD _ _ hk, List.reverse_concat]
    by_cases h8 : k < 8
    · simp [h8, Nat.div_eq_of_lt h8, Nat.mod_eq_of_lt h8]
    · rw [if_neg h8, ih (by omega), show k / 8 = (k - 8) / 8 + 1 by omega, List.getElem?_cons_succ,
        show k % 8 = (k - 8) % 8 by omega]

/-- R35: bit `j` of byte `k`. -/
theorem byteOf_getLsbD (v : Word) {k j : Nat} (hj : j < 8) (hk : k ≤ 8) :
    (byteOf v k).getLsbD j = v.getLsbD (64 - 8 * k + j) := by
  rw [byteOf, slice_getLsbD _ _ _ _ (by omega), decide_eq_true (by omega), Bool.true_and]

/-- R51: byte `k` of those sent is eight bits of the word. -/
theorem setWidth_byteOf (v : Word) {k : Nat} (hk : k ≤ 8) :
    (byteOf v k).setWidth 8 = v.extractLsb' (64 - 8 * k) 8 := by
  refine BitVec.eq_of_getLsbD_eq fun j hj => ?_
  rw [BitVec.getLsbD_setWidth, BitVec.getLsbD_extractLsb', byteOf_getLsbD v hj hk]

/-- R51: the bytes of a word spell the word. -/
theorem deserialise_serialise (v : Word) : deserialise (serialise v) = v := by
  refine BitVec.eq_of_getLsbD_eq fun k hk => ?_
  have sent : (serialise v).reverse[k / 8]? = some (v.extractLsb' (8 * (k / 8)) 8) := by
    rw [List.getElem?_reverse (by rw [serialise_length]; omega), serialise_length,
      show 8 - 1 - k / 8 = 8 - k / 8 - 1 by omega, serialise_get v _ (by omega) (by omega),
      setWidth_byteOf v (by omega), show 64 - 8 * (8 - k / 8) = 8 * (k / 8) by omega]
  rw [deserialise_getLsbD _ hk, sent, Option.getD_some, BitVec.getLsbD_extractLsb',
    decide_eq_true (Nat.mod_lt _ (by decide)), Bool.true_and, Nat.div_add_mod]

/-- Settles O60: the first byte sent is byte 1 and the last is byte 8. -/
theorem serialisationIsBigEndian : Obligations.SerialisationIsBigEndian := by
  intro v
  have byte1 := serialise_get v 1 (by decide) (by decide)
  have byte8 := serialise_get v 8 (by decide) (by decide)
  rw [setWidth_byteOf v (by decide)] at byte1 byte8
  exact ⟨serialise_length v, byte1, byte8, deserialise_serialise v⟩

end Sys2Proof.Machine
end

section
/-! PROOFS. LS2 and RS2 (spec/30_encoding.md R85): two requests, the second on the result of the first. On a block that is
out of reset and serves nobody else the host gets the operation's own response to each (`HostState.issueWord_eq`). -/

namespace Sys2Proof.Machine

/-- R78: the assembled word of an operation is answered with the operation's response. -/
theorem answerTo_encode {i : Instr} (h : i.WellFormed) (v : Word) : answerTo (encode i) v = respond i v := by
  rw [answerTo, decode_encode h]

/-- R70: what the host holds once the operation `i` has answered the operand `v`. -/
def HostState.afterRequest (h : Nat) (i : Instr) (v : Word) (σ : HostState) : HostState :=
  { σ with
    last := some (respond i v)
    responses := σ.responses ++ [respond i v]
    block := ((σ.block.issue ⟨h, encode i, v⟩).serve ⟨h, encode i, v⟩ []).deliver (respond i v) }

section
variable {h : Nat} {i : Instr} {v : Word} {σ : HostState}

@[simp] theorem HostState.afterRequest_responses :
    (σ.afterRequest h i v).responses = σ.responses ++ [respond i v] := rfl
@[simp] theorem HostState.afterRequest_outstanding : (σ.afterRequest h i v).block.outstanding = [] := rfl
@[simp] theorem HostState.afterRequest_resetAsserted :
    (σ.afterRequest h i v).block.resetAsserted = σ.block.resetAsserted := State.issue_resetAsserted ..
@[simp] theorem HostState.afterRequest_draw : (σ.afterRequest h i v).block.draw = σ.block.draw + 1 :=
  congrArg (· + 1) (State.issue_draw ..)

/-- R83, R86: a request line whose operand has a value is answered, and the run goes on. -/
theorem runLines_request {o : Operand} {ls : List NumberedLine} (hi : i.WellFormed) (hv : σ.operand o = some v.toNat)
    (hr : σ.block.resetAsserted = false) (ho : σ.block.outstanding = []) :
    runLines h (.request i o :: ls) σ = runLines h ls (σ.afterRequest h i v).endLine := by
  have body : runBody h (.request i o) σ = (.finished, σ.afterRequest h i v) := by
    rw [runBody, hv]
    dsimp only
    rw [HostState.issueInstr_of_wellFormed h _ σ hi, HostState.issueWord_eq h _ v σ hr ho, answerTo_encode hi]
    rfl
  rw [runLines, body, HostRun.andThen_finished]

/-- R84: a request line whose operand has no value stops the run. -/
theorem runLines_request_of_failed {o : Operand} {ls : List NumberedLine} (hv : σ.operand o = none) :
    runLines h (.request i o :: ls) σ = (.failedOperand, σ) := by
  have body : runBody h (.request i o) σ = (.failedOperand, σ) := by rw [runBody, hv]
  rw [runLines, body]
  rfl

end

@[simp] theorem HostState.start_block (s : State) : (HostState.start s).block = s := rfl
@[simp] theorem HostState.start_responses (s : State) : (HostState.start s).responses = [] := rfl

/-- R84: what `%1` stands for after line 1 of a program. -/
theorem operand_result_one (h : Nat) (i : Instr) (v : Word) (s : State) :
    ((HostState.start s).afterRequest h i v).endLine.operand (.result 1) = resultValue (some (respond i v)) := rfl

/-- R85: two lines, a request and the same on its result, when the first answers OK. -/
theorem runLines_twice {i : Instr} (hi : i.WellFormed) {v u : Word} (hu : respond i v = .ok u) (h : Nat) {s : State}
    (hr : s.resetAsserted = false) (ho : s.outstanding = []) :
    runLines h [.request i (.lit v), .request i (.result 1)] (.start s) =
      (.finished, (((HostState.start s).afterRequest h i v).endLine.afterRequest h i u).endLine) := by
  rw [runLines_request hi rfl hr ho]
  have result : ((HostState.start s).afterRequest h i v).endLine.operand (.result 1) = some u.toNat := by
    rw [operand_result_one, hu, resultValue]
  rw [runLines_request hi result (by simpa using hr) (by simp), runLines]

/-- R84: and when the first does not. -/
theorem runLines_twice_of_error {i : Instr} (hi : i.WellFormed) {v : Word} {e : Error} (he : respond i v = .err e) (h : Nat)
    {s : State} (hr : s.resetAsserted = false) (ho : s.outstanding = []) :
    runLines h [.request i (.lit v), .request i (.result 1)] (.start s) =
      (.failedOperand, ((HostState.start s).afterRequest h i v).endLine) := by
  rw [runLines_request hi rfl hr ho]
  exact runLines_request_of_failed (by rw [operand_result_one, he, resultValue])

/-- R160, R161: LS and RS are operations without an index. -/
theorem wellFormed_of_rotation {i : Instr} (hi : i ∈ [Instr.ls, .rs]) : i.WellFormed := by
  rcases List.mem_pair.mp hi with rfl | rfl <;> rfl

/-- R85: a line that stands for a rotation and the same rotation of its result. -/
theorem runProgram_rotation_twice {i : Instr} (hi : i ∈ [Instr.ls, .rs]) {l : Line} {v : Word}
    (hl : expand [l] = [.request i (.lit v), .request i (.result 1)]) (h : Nat) {s : State}
    (hr : s.resetAsserted = false) (ho : s.outstanding = []) :
    (v.toNat < 2 ^ 56 → ∃ (u w : Word) (t : State), Answers i v (.ok u) ∧ Answers i u (.ok w) ∧
        runProgram h [l] s = (.finished, [.ok u, .ok w], t) ∧ t.outstanding = []) ∧
      (2 ^ 56 ≤ v.toNat → ∃ t : State,
        runProgram h [l] s = (.failedOperand, [.err .invalidWidthRange], t) ∧ t.outstanding = [] ∧
          t.draw = s.draw + 1) := by
  have wellFormed := wellFormed_of_rotation hi
  obtain ⟨f, m, hf, hrule⟩ := exists_rotatesHalves hi
  refine ⟨fun hv => ?fits, fun hv => ?wide⟩
  case fits =>
    have once : respond i v = .ok (f v) := hrule ▸ checked_of_fits f hv
    have again : respond i (f v) = .ok (f (f v)) := hrule ▸ checked_of_fits f (hf.lt v)
    have program : runProgram h [l] s = (.finished, [.ok (f v), .ok (f (f v))],
        (((HostState.start s).afterRequest h i v).endLine.afterRequest h i (f v)).block) := by
      rw [runProgram, runHost, hl, runLines_twice wellFormed once h hr ho]
      simp [once, again]
    exact ⟨_, _, _, (answers_iff _ _ _).mpr once, (answers_iff _ _ _).mpr again, program, rfl⟩
  case wide =>
    have failed : respond i v = .err .invalidWidthRange := hrule ▸ checked_of_not_fits f (Nat.not_lt.mpr hv)
    have program : runProgram h [l] s = (.failedOperand, [.err .invalidWidthRange],
        ((HostState.start s).afterRequest h i v).block) := by
      rw [runProgram, runHost, hl, runLines_twice_of_error wellFormed failed h hr ho]
      simp [failed]
    exact ⟨_, program, rfl, HostState.afterRequest_draw⟩

/-- Settles O54: LS2 and RS2 expand to a rotation and the same rotation of its result, which is there exactly when the
operand has 56 bits. -/
theorem pseudoInstructionsIssueTwoRequests : Obligations.PseudoInstructionsIssueTwoRequests := by
  refine ⟨fun _ _ => ⟨rfl, rfl⟩, fun h s v hr ho x hx => ?_⟩
  rcases List.mem_pair.mp hx with rfl | rfl
  · exact runProgram_rotation_twice (List.mem_cons_self ..) rfl h hr ho
  · exact runProgram_rotation_twice (List.mem_cons_of_mem _ (List.mem_cons_self ..)) rfl h hr ho

end Sys2Proof.Machine
end

section
/-! PROOFS. The constant tables (spec/10_state.md R29 to R37, spec/41_inverses.md R134): facts of closed lists, checked
entry by entry. -/

namespace Sys2Proof.Machine

/-- R30: E names 16 positions twice. -/
theorem count_e : ∀ j ∈ List.range' 1 32, Tables.e.count j =
    if j ∈ [1, 4, 5, 8, 9, 12, 13, 16, 17, 20, 21, 24, 25, 28, 29, 32] then 2 else 1 := by decide

/-- R33: the first half of PC2 reads the C half. -/
theorem entry_pc2_le : ∀ i ∈ List.range' 1 24, Tables.entry Tables.pc2 i ≤ 28 := by decide

/-- R33: the second half of PC2 reads the D half. -/
theorem le_entry_pc2 : ∀ i ∈ List.range' 25 24, 29 ≤ Tables.entry Tables.pc2 i := by decide

/-- R31: P is a bijection. -/
theorem p_perm : Tables.p.Perm (List.range' 1 32) := by decide

/-- R34: every row of an S-box is a bijection. -/
theorem sbox_rows_perm : ∀ S ∈ Tables.sboxes, S.length = 4 ∧ ∀ row ∈ S, row.Perm (List.range 16) := by decide

/-- Settles O58: each fact is one of a table's entries. -/
theorem tableFacts : Obligations.TableFacts :=
  ⟨fun i h1 h2 => ⟨entry_fp_entry_ip i h1 h2, entry_ip_entry_fp i h1 h2⟩,
    fun j h1 h2 => count_e j (List.mem_range'_1.mpr ⟨h1, by omega⟩), p_perm, pc1_positions.1, pc1_length,
    pc2_positions.1, pc2_length, fun i h1 h2 => entry_pc2_le i (List.mem_range'_1.mpr ⟨h1, by omega⟩),
    fun i h1 h2 => le_entry_pc2 i (List.mem_range'_1.mpr ⟨h1, by omega⟩), sbox_rows_perm, rfl, rfl⟩

/-- Settles O59: `outs` evaluated at the 32 positions. -/
theorem duplicatedPositionsOfE : Obligations.DuplicatedPositionsOfE := by
  unfold Obligations.DuplicatedPositionsOfE
  decide

end Sys2Proof.Machine
end
